-- ==== Sys2Proof/Word.lean ====
section
/-! DEFINITION. Bytes, words, sixteen-byte blocks and the word schedule (00_scope.md R6, R7): the data of the block
and the index arithmetic `4·col+row` that joins `S[row][col]` to a linear buffer (20_memory.md R32). -/

namespace Sys2Proof

/-- A Byte, 8 bits, bit 0 least significant (00_scope.md R6). -/
abbrev Byte := BitVec 8

/-- A Word, four bytes `[a0,a1,a2,a3]`, byte `a0` first; never an integer (00_scope.md R7). -/
abbrev Word := Vector Byte 4

/-- Sixteen bytes in linear order: the State matrix (byte `4·col+row` is `S[row][col]`) or a key, plaintext,
ciphertext or event buffer (00_scope.md R7, 20_memory.md R32). -/
abbrev Block := Vector Byte 16

/-- The key schedule: exactly forty-four words (10_state.md R11). -/
abbrev Schedule := Vector Word 44

/-- `lin(row,col) = 4·col + row` (00_scope.md R7). -/
def lin (row col : Fin 4) : Fin 16 := ⟨4 * col.val + row.val, by omega⟩

/-- The row of linear index `j`. -/
def rowOf (j : Fin 16) : Fin 4 := ⟨j.val % 4, by omega⟩

/-- The column of linear index `j`. -/
def colOf (j : Fin 16) : Fin 4 := ⟨j.val / 4, by omega⟩

/-- The word of four zero bytes. -/
def zeroWord : Word := Vector.replicate 4 0

/-- Sixteen zero bytes. -/
def zeroBlock : Block := Vector.replicate 16 0

/-- Forty-four zero words. -/
def zeroSchedule : Schedule := Vector.replicate 44 zeroWord

/-- `S[row][col]` of a State matrix held in linear order. -/
def cell (b : Block) (row col : Fin 4) : Byte := b[(lin row col).val]

/-- Exclusive OR of two words, byte by byte (00_scope.md section 5). -/
def xorWord (a b : Word) : Word := Vector.ofFn fun j => a[j.val] ^^^ b[j.val]

/-- Exclusive OR of two blocks, byte by byte (00_scope.md section 5). -/
def xorBlock (a b : Block) : Block := Vector.ofFn fun j => a[j.val] ^^^ b[j.val]

end Sys2Proof
end

