-- ==== Sys2Proof/Syntax.lean ====
section
/-! DEFINITION. The operations of the sequencer and the two host commands: one constructor per row of
spec/opcode_table.json (30_encoding.md R46, R56), and the listing text of an operation (R52). -/

namespace Sys2Proof

/-- One constructor per row of the opcode table. KSW and ARK carry the whole 6-bit `arg` field of the operation word
(30_encoding.md R45); `Instr.WellFormed` says which values are legal. -/
inductive Instr where
  /-- Compute key-schedule word `i` (42_key_schedule.md R84). -/
  | ksw (i : BitVec 6)
  /-- Load State from the latched plaintext (44_sequencer.md R102). -/
  | lds
  /-- AddRoundKey of round `r` (43_round_transforms.md R95). -/
  | ark (r : BitVec 6)
  /-- SubBytes (43_round_transforms.md R90). -/
  | sub
  /-- ShiftRows (43_round_transforms.md R92). -/
  | shr
  /-- MixColumns (43_round_transforms.md R94). -/
  | mix
  /-- Store the ciphertext (44_sequencer.md R103). -/
  | stc
  /-- Host command START (44_sequencer.md R101). -/
  | start
  /-- Host command reset (70_reset_and_hazards.md R150). -/
  | reset
  deriving DecidableEq, Repr

/-- The listing text: the mnemonic in capitals, then for KSW and ARK one space and the argument in decimal
(30_encoding.md R52). -/
def Instr.listing : Instr → String
  | .ksw i => "KSW " ++ toString i.toNat
  | .lds => "LDS"
  | .ark r => "ARK " ++ toString r.toNat
  | .sub => "SUB"
  | .shr => "SHR"
  | .mix => "MIX"
  | .stc => "STC"
  | .start => "START"
  | .reset => "RESET"

/-- The document's long name of an operation that has one, an accepted alias (30_encoding.md R52). -/
def Instr.longName : Instr → Option String
  | .sub => some "SubBytes"
  | .shr => some "ShiftRows"
  | .mix => some "MixColumns"
  | .ark r => some ("AddRoundKey(" ++ toString r.toNat ++ ")")
  | .ksw _ | .lds | .stc | .start | .reset => none

end Sys2Proof
end

