-- ==== Sys2Proof/WellFormed.lean ====
section
/-! DEFINITION. Which operations exist: the legal ranges of `arg` (30_encoding.md R46, R48). -/

namespace Sys2Proof

/-- The `arg` of KSW is 0..43 and of ARK 0..10; the other operations carry no argument, and START and reset are
always legal (30_encoding.md R46, R53). -/
def Instr.WellFormed : Instr → Bool
  | .ksw i => decide (i.toNat < 44)
  | .ark r => decide (r.toNat < 11)
  | .lds | .sub | .shr | .mix | .stc | .start | .reset => true

end Sys2Proof
end

