-- ==== Sys2Proof/Decode.lean ====
section
/-! DEFINITION. The encodings of 30_encoding.md: the 10-bit operation word (R45 to R48, R54), the one-bit host pins
(R56), a total decoder that rejects by name, and the encoder written from the same table. -/

namespace Sys2Proof

/-- Where the bits of an instruction stand: an operation word, or the level of one of the two host pins
(30_encoding.md R45, R56). START and reset are told apart by the pin, not by the bits: both are a single 1. -/
inductive Code where
  /-- The 10-bit operation word `OPW`. -/
  | opw (w : BitVec 10)
  /-- The level of input pin `START`. -/
  | startPin (b : BitVec 1)
  /-- The level of input pin `RST`. -/
  | rstPin (b : BitVec 1)
  deriving DecidableEq, Repr

/-- Why a code is no instruction. -/
inductive DecodeError where
  /-- `kind` 0 or 8..15 (30_encoding.md R48). -/
  | reservedKind
  /-- KSW with `arg` 44..63 (30_encoding.md R48). -/
  | kswIndexOutOfRange
  /-- ARK with `arg` 11..63 (30_encoding.md R48). -/
  | arkRoundOutOfRange
  /-- LDS, SUB, SHR, MIX or STC with `arg` not 0 (30_encoding.md R48). -/
  | argumentNotZero
  /-- A host pin at level 0: no request (30_encoding.md R56). -/
  | noRequest
  deriving DecidableEq, Repr

/-- The answer of the decoder. -/
inductive Decoded where
  | instr (i : Instr)
  | rejected (e : DecodeError)
  deriving DecidableEq, Repr

/-- `OPW[9:6]` (30_encoding.md R45). -/
def kindField (w : BitVec 10) : BitVec 4 := w.extractLsb' 6 4

/-- `OPW[5:0]`, unsigned (30_encoding.md R45). -/
def argField (w : BitVec 10) : BitVec 6 := w.extractLsb' 0 6

/-- An operation that takes no argument, read from its `arg` field. -/
def decodeNoArg (i : Instr) (arg : BitVec 6) : Decoded :=
  if arg = 0 then .instr i else .rejected .argumentNotZero

/-- `Decode(opw)`, total on the 1024 values (30_encoding.md R47), by the `kind` map of R54. -/
def decodeOpw (w : BitVec 10) : Decoded :=
  if kindField w = 1 then
    if (argField w).toNat < 44 then .instr (.ksw (argField w)) else .rejected .kswIndexOutOfRange
  else if kindField w = 2 then decodeNoArg .lds (argField w)
  else if kindField w = 3 then
    if (argField w).toNat < 11 then .instr (.ark (argField w)) else .rejected .arkRoundOutOfRange
  else if kindField w = 4 then decodeNoArg .sub (argField w)
  else if kindField w = 5 then decodeNoArg .shr (argField w)
  else if kindField w = 6 then decodeNoArg .mix (argField w)
  else if kindField w = 7 then decodeNoArg .stc (argField w)
  else .rejected .reservedKind

/-- The decoder of every code: an operation word, or a host pin (30_encoding.md R47, R56). -/
def decode : Code → Decoded
  | .opw w => decodeOpw w
  | .startPin b => if b = 1 then .instr .start else .rejected .noRequest
  | .rstPin b => if b = 1 then .instr .reset else .rejected .noRequest

/-- The operation word with the given fields (30_encoding.md R45). -/
def opwOf (kind : BitVec 4) (arg : BitVec 6) : BitVec 10 := kind ++ arg

/-- The encoder, from the table of 30_encoding.md R46 and the pins of R56. -/
def encode : Instr → Code
  | .ksw i => .opw (opwOf 1 i)
  | .lds => .opw (opwOf 2 0)
  | .ark r => .opw (opwOf 3 r)
  | .sub => .opw (opwOf 4 0)
  | .shr => .opw (opwOf 5 0)
  | .mix => .opw (opwOf 6 0)
  | .stc => .opw (opwOf 7 0)
  | .start => .startPin 1
  | .reset => .rstPin 1

/-- The code that a row of spec/opcode_table.json has when its bits are `w`: a row of more than 8 bits is an operation
word (format OPW, 10 bits), a row of up to 8 bits a host pin (format HOSTCMD, 1 bit). DESIGN CHOICE (log entry 3): the
table gives START and RESET the same bit, so a bare 1 is read from pin START. -/
def tableCode (nbits w : Nat) : Option Code :=
  if nbits ≤ 8 then
    if w < 2 then some (.startPin (BitVec.ofNat 1 w)) else none
  else
    if w < 1024 then some (.opw (BitVec.ofNat 10 w)) else none

/-- The instruction the decoder reads from a table row's bits, if any. -/
def decodeTableWord (nbits w : Nat) : Option Instr :=
  match tableCode nbits w with
  | none => none
  | some c =>
    match decode c with
    | .instr i => some i
    | .rejected _ => none

end Sys2Proof
end

