-- ==== Sys2Proof/Config.lean ====
section
/-! DEFINITION. What is fixed for this hardware (00_scope.md R4) and the S-box ROM (41_sbox.md R70), a constant of the
configuration (10_state.md R15, 92_eei_decisions.md D29). The block has no free value: no operation's result is left
open by the spec. -/

namespace Sys2Proof.Config

/-- Block size in words, the columns of State (00_scope.md R4). -/
def Nb : Nat := 4

/-- Key size in words (00_scope.md R4); with this value the `Nk > 6` branch is absent (42_key_schedule.md R85). -/
def Nk : Nat := 4

/-- Number of rounds; RoundIndex ranges over 0..Nr (00_scope.md R4). -/
def Nr : Nat := 10

/-- The key length START accepts, in bytes (60_exceptions.md R131). -/
def keyBytes : Byte := 16

/-- Low eight bits of x^8+x^4+x^3+x+1 (40_gf_multiplier.md R60). -/
def reductionByte : Byte := 0x1B

/-- `Rcon(1) = [0x01,0,0,0]` (00_scope.md R4, 42_key_schedule.md R82). -/
def rconSeed : Byte := 0x01

/-- Row 0x0 of the S-box (41_sbox.md R70). -/
def sboxRow0 : Vector Byte 16 :=
  #v[0x63, 0x7c, 0x77, 0x7b, 0xf2, 0x6b, 0x6f, 0xc5, 0x30, 0x01, 0x67, 0x2b, 0xfe, 0xd7, 0xab, 0x76]

/-- Row 0x1 of the S-box (41_sbox.md R70). -/
def sboxRow1 : Vector Byte 16 :=
  #v[0xca, 0x82, 0xc9, 0x7d, 0xfa, 0x59, 0x47, 0xf0, 0xad, 0xd4, 0xa2, 0xaf, 0x9c, 0xa4, 0x72, 0xc0]

/-- Row 0x2 of the S-box (41_sbox.md R70). -/
def sboxRow2 : Vector Byte 16 :=
  #v[0xb7, 0xfd, 0x93, 0x26, 0x36, 0x3f, 0xf7, 0xcc, 0x34, 0xa5, 0xe5, 0xf1, 0x71, 0xd8, 0x31, 0x15]

/-- Row 0x3 of the S-box (41_sbox.md R70). -/
def sboxRow3 : Vector Byte 16 :=
  #v[0x04, 0xc7, 0x23, 0xc3, 0x18, 0x96, 0x05, 0x9a, 0x07, 0x12, 0x80, 0xe2, 0xeb, 0x27, 0xb2, 0x75]

/-- Row 0x4 of the S-box (41_sbox.md R70). -/
def sboxRow4 : Vector Byte 16 :=
  #v[0x09, 0x83, 0x2c, 0x1a, 0x1b, 0x6e, 0x5a, 0xa0, 0x52, 0x3b, 0xd6, 0xb3, 0x29, 0xe3, 0x2f, 0x84]

/-- Row 0x5 of the S-box (41_sbox.md R70). -/
def sboxRow5 : Vector Byte 16 :=
  #v[0x53, 0xd1, 0x00, 0xed, 0x20, 0xfc, 0xb1, 0x5b, 0x6a, 0xcb, 0xbe, 0x39, 0x4a, 0x4c, 0x58, 0xcf]

/-- Row 0x6 of the S-box (41_sbox.md R70). -/
def sboxRow6 : Vector Byte 16 :=
  #v[0xd0, 0xef, 0xaa, 0xfb, 0x43, 0x4d, 0x33, 0x85, 0x45, 0xf9, 0x02, 0x7f, 0x50, 0x3c, 0x9f, 0xa8]

/-- Row 0x7 of the S-box (41_sbox.md R70). -/
def sboxRow7 : Vector Byte 16 :=
  #v[0x51, 0xa3, 0x40, 0x8f, 0x92, 0x9d, 0x38, 0xf5, 0xbc, 0xb6, 0xda, 0x21, 0x10, 0xff, 0xf3, 0xd2]

/-- Row 0x8 of the S-box (41_sbox.md R70). -/
def sboxRow8 : Vector Byte 16 :=
  #v[0xcd, 0x0c, 0x13, 0xec, 0x5f, 0x97, 0x44, 0x17, 0xc4, 0xa7, 0x7e, 0x3d, 0x64, 0x5d, 0x19, 0x73]

/-- Row 0x9 of the S-box (41_sbox.md R70). -/
def sboxRow9 : Vector Byte 16 :=
  #v[0x60, 0x81, 0x4f, 0xdc, 0x22, 0x2a, 0x90, 0x88, 0x46, 0xee, 0xb8, 0x14, 0xde, 0x5e, 0x0b, 0xdb]

/-- Row 0xa of the S-box (41_sbox.md R70). -/
def sboxRowA : Vector Byte 16 :=
  #v[0xe0, 0x32, 0x3a, 0x0a, 0x49, 0x06, 0x24, 0x5c, 0xc2, 0xd3, 0xac, 0x62, 0x91, 0x95, 0xe4, 0x79]

/-- Row 0xb of the S-box (41_sbox.md R70). -/
def sboxRowB : Vector Byte 16 :=
  #v[0xe7, 0xc8, 0x37, 0x6d, 0x8d, 0xd5, 0x4e, 0xa9, 0x6c, 0x56, 0xf4, 0xea, 0x65, 0x7a, 0xae, 0x08]

/-- Row 0xc of the S-box (41_sbox.md R70). -/
def sboxRowC : Vector Byte 16 :=
  #v[0xba, 0x78, 0x25, 0x2e, 0x1c, 0xa6, 0xb4, 0xc6, 0xe8, 0xdd, 0x74, 0x1f, 0x4b, 0xbd, 0x8b, 0x8a]

/-- Row 0xd of the S-box (41_sbox.md R70). -/
def sboxRowD : Vector Byte 16 :=
  #v[0x70, 0x3e, 0xb5, 0x66, 0x48, 0x03, 0xf6, 0x0e, 0x61, 0x35, 0x57, 0xb9, 0x86, 0xc1, 0x1d, 0x9e]

/-- Row 0xe of the S-box (41_sbox.md R70). -/
def sboxRowE : Vector Byte 16 :=
  #v[0xe1, 0xf8, 0x98, 0x11, 0x69, 0xd9, 0x8e, 0x94, 0x9b, 0x1e, 0x87, 0xe9, 0xce, 0x55, 0x28, 0xdf]

/-- Row 0xf of the S-box (41_sbox.md R70). -/
def sboxRowF : Vector Byte 16 :=
  #v[0x8c, 0xa1, 0x89, 0x0d, 0xbf, 0xe6, 0x42, 0x68, 0x41, 0x99, 0x2d, 0x0f, 0xb0, 0x54, 0xbb, 0x16]

/-- The S-box ROM as sixteen rows of sixteen, row the high nibble, column the low nibble (41_sbox.md R70).
UNVERIFIED (log entry 6): 66 of the 256 entries are read by no known-answer test of the source. -/
def sbox : Vector (Vector Byte 16) 16 :=
  #v[sboxRow0, sboxRow1, sboxRow2, sboxRow3, sboxRow4, sboxRow5, sboxRow6, sboxRow7,
     sboxRow8, sboxRow9, sboxRowA, sboxRowB, sboxRowC, sboxRowD, sboxRowE, sboxRowF]

end Sys2Proof.Config
end

