-- ==== Sys2Proof/Machine/State.lean ====
section
/-! DEFINITION. The state of CORE as plain data: the registers of 10_state.md, the event record on the observer port,
the host's inputs of the coming steps, the reset state (10_state.md R25), and the reasons a step can stop. -/

namespace Sys2Proof.Machine

/-- Register `PH`, 3 bits (10_state.md R16). The code 7 is unrepresentable (70_reset_and_hazards.md R161). -/
inductive Phase where
  | idle | kexp | load | round | store | done | error
  deriving DecidableEq, Repr

/-- Register `OPS`, 2 bits: which sub-transform of the round is next (10_state.md R16). -/
inductive SubStep where
  | sub | shr | mix | ark
  deriving DecidableEq, Repr

/-- Register `ERR`, 2 bits (10_state.md R18). The codes 2 and 3 are never written by the hardware and are
unrepresentable (70_reset_and_hazards.md R161). -/
inductive ErrorCode where
  | none | invalidKeyLength
  deriving DecidableEq, Repr

/-- The sequencer position `pc = (PH, KI, R, OPS)`, this block's program counter (10_state.md R16). -/
structure Position where
  PH : Phase
  KI : BitVec 6
  R : BitVec 4
  OPS : SubStep
  deriving DecidableEq, Repr

/-- The input ports of one step (10_state.md R20). -/
structure Inputs where
  RST : Bool
  START : Bool
  KEY : Block
  PT : Block
  KEYLEN : Byte
  GFA : Byte
  GFB : Byte
  deriving DecidableEq, Repr

/-- The ports of a host that drives nothing: no reset, no request, every buffer zero (log entry 1). -/
def Inputs.quiet : Inputs :=
  { RST := false, START := false, KEY := zeroBlock, PT := zeroBlock, KEYLEN := 0, GFA := 0, GFB := 0 }

/-- The event record on port `EV`; its `valid` bit is the `some` of an option (30_encoding.md R50). -/
structure Event where
  opw : BitVec 10
  before : Block
  after : Block
  deriving DecidableEq, Repr

end Sys2Proof.Machine

namespace Sys2Proof.Machine

/-- The whole state (10_state.md R23: `S`, `W`, `KEYR`, `PTR`, `CT`, `PH`, `KI`, `R`, `OPS`, `ERR`), and two fields of
the model's own: `ev`, port `EV` in the step that led here (log entry 2), and `inputs`, the port values of the coming
steps, oldest first (log entry 1). -/
structure State where
  S : Block
  W : Schedule
  KEYR : Block
  PTR : Block
  CT : Block
  pc : Position
  ERR : ErrorCode
  ev : Option Event
  inputs : List Inputs
  deriving DecidableEq, Repr

/-- `(IDLE, 0, 0, 0)` (10_state.md R17). -/
def Position.idle : Position := { PH := .idle, KI := 0, R := 0, OPS := .sub }

/-- The machine right after reset: every register at its value of 10_state.md R25, no event, and a host that has
nothing lined up. -/
def State.reset : State :=
  { S := zeroBlock, W := zeroSchedule, KEYR := zeroBlock, PTR := zeroBlock, CT := zeroBlock,
    pc := Position.idle, ERR := .none, ev := none, inputs := [] }

/-- Reasons the machine stops with a fault. There is none: the one exception of this hardware, InvalidKeyLength, is
taken as a next state (60_exceptions.md R130, R134), and the data operations cannot fail (R137). -/
inductive Fault where
  deriving DecidableEq, Repr

/-- Reasons a step or an instruction has no meaning. -/
inductive Refusal where
  /-- An instruction whose arm gives it no meaning yet, by its mnemonic. Raised by `exec` only. Safe: the model stops
  where the hardware goes on. -/
  | notModelled (mnemonic : String)
  /-- KSW with `arg` 44..63, ARK with `arg` 11..63, or a reserved word at the sequencer: the spec attaches no
  behaviour to it and asks a model to refuse it (30_encoding.md R48, 93_implementation_defined.md U10). Raised by
  `execKsw`, `execArk` and `step`. Safe: the hardware never produces such a word. -/
  | reservedOperation (opw : BitVec 10)
  /-- A position outside the 89 of 44_sequencer.md R104, with no reset asked for: the spec gives it no behaviour and
  asks a model to refuse it (70_reset_and_hazards.md R161, 93_implementation_defined.md U12). Raised by `step`. Safe: no
  run from reset gets there. -/
  | unreachablePosition (pc : Position)
  deriving DecidableEq, Repr

end Sys2Proof.Machine
end

