-- ==== Sys2Proof/Machine/Flags.lean ====
section
/-! DEFINITION. Flags: the block has no condition codes; its three status outputs are pure functions of `PH`
(10_state.md R19). Beside them the numeric codes of `PH`, `OPS` and `ERR` (10_state.md R16, R18). -/

namespace Sys2Proof.Machine

/-- The 3-bit code of a phase (10_state.md R16). -/
def Phase.code : Phase → BitVec 3
  | .idle => 0
  | .kexp => 1
  | .load => 2
  | .round => 3
  | .store => 4
  | .done => 5
  | .error => 6

/-- The 2-bit code of a sub-transform (10_state.md R16). -/
def SubStep.code : SubStep → BitVec 2
  | .sub => 0
  | .shr => 1
  | .mix => 2
  | .ark => 3

/-- The 2-bit error code (10_state.md R18, 60_exceptions.md R130). -/
def ErrorCode.code : ErrorCode → BitVec 2
  | .none => 0
  | .invalidKeyLength => 1

/-- `PH ∈ {KEXP, LOAD, ROUND, STORE}` (10_state.md R19). -/
def Phase.isBusy : Phase → Bool
  | .kexp | .load | .round | .store => true
  | .idle | .done | .error => false

/-- `PH ∈ {IDLE, DONE, ERROR}`: the phases in which START is looked at (44_sequencer.md R101). -/
def Phase.acceptsStart : Phase → Bool
  | .idle | .done | .error => true
  | .kexp | .load | .round | .store => false

/-- Output `BUSY` (10_state.md R19). -/
def State.BUSY (s : State) : Bool := s.pc.PH.isBusy

/-- Output `DONE` (10_state.md R19). -/
def State.DONE (s : State) : Bool := decide (s.pc.PH = .done)

/-- Output `ERRF` (10_state.md R19). -/
def State.ERRF (s : State) : Bool := decide (s.pc.PH = .error)

end Sys2Proof.Machine
end

