-- ==== Sys2Proof/Machine/Operands.lean ====
section
/-! DEFINITION. Operand forms: the ports sampled in a step (10_state.md R20), the index spaces and their linear bytes
(20_memory.md R30), `MemRead` and `MemWrite` (00_scope.md section 5), and the words and columns the operations read. -/

namespace Sys2Proof.Machine

/-- The values on the input ports in the next step (10_state.md R20): the oldest of the lined-up inputs, and undriven
ports past their end (log entry 1). -/
def State.input (s : State) : Inputs := s.inputs.headD Inputs.quiet

/-- The six index spaces (20_memory.md R30). -/
inductive Space where
  | S | W | KEYR | PTR | CT | SBOX
  deriving DecidableEq, Repr

/-- Number of bytes of a space (20_memory.md R30). -/
def Space.size : Space → Nat
  | .S | .KEYR | .PTR | .CT => 16
  | .W => 176
  | .SBOX => 256

/-- Byte `k` of a block, if it exists. -/
def blockByte (b : Block) (k : Nat) : Option Byte := b[k]?

/-- Byte `k` of a schedule under the linear index `4·i + j`, if it exists (20_memory.md R30). -/
def scheduleByte (w : Schedule) (k : Nat) : Option Byte :=
  match w[k / 4]? with
  | none => none
  | some x => some (x[k % 4]'(Nat.mod_lt k (by decide)))

/-- Byte `k` of the S-box ROM under the linear index `16·h + l`, if it exists (20_memory.md R30). -/
def sboxByte (k : Nat) : Option Byte :=
  match Config.sbox[k / 16]? with
  | none => none
  | some row => some (row[k % 16]'(Nat.mod_lt k (by decide)))

/-- The byte at linear index `k` of a space, `none` past its end (20_memory.md R30). -/
def State.byteAt (s : State) (a : Space) (k : Nat) : Option Byte :=
  match a with
  | .S => blockByte s.S k
  | .W => scheduleByte s.W k
  | .KEYR => blockByte s.KEYR k
  | .PTR => blockByte s.PTR k
  | .CT => blockByte s.CT k
  | .SBOX => sboxByte k

/-- `MemRead(A, k, n)`: the bytes `A[k], …, A[k+n-1]` (00_scope.md section 5), `none` where one does not exist. -/
def State.memRead (s : State) (a : Space) (k n : Nat) : Option (List Byte) :=
  (List.range n).mapM fun j => s.byteAt a (k + j)

/-- `MemRead(A, 4·c, 4)` of a sixteen-byte array: its `c`-th group of four bytes. For `KEYR` it is the key word of
KSW `c` (42_key_schedule.md R84), for `S` column `c` of State (00_scope.md R7). -/
def wordOfBlock (b : Block) (c : Fin 4) : Word := Vector.ofFn fun j => b[4 * c.val + j.val]

/-- The round key of round `r`: the words `W[4r..4r+3]`, sixteen bytes in linear order (42_key_schedule.md R86,
43_round_transforms.md R95). -/
def roundKey (w : Schedule) (r : Fin 11) : Block :=
  Vector.ofFn fun j => (w[4 * r.val + (colOf j).val]'(by have := r.isLt; have := (colOf j).isLt; omega))[(rowOf j).val]

/-- A word in bytes 0..3 and zeros in bytes 4..15: how a schedule word stands in an event record
(30_encoding.md R51). -/
def padWord (w : Word) : Block := Vector.ofFn fun j => if h : j.val < 4 then w[j.val] else 0

/-- A block as one 128-bit vector, byte 0 in the most significant eight bits (20_memory.md R33). -/
def packBlock (b : Block) : BitVec 128 := b.toList.foldl (fun v x => (v <<< 8) ||| x.setWidth 128) 0

/-- A word as one 32-bit vector, `a0` in bits 31:24 (20_memory.md R33). -/
def packWord (w : Word) : BitVec 32 := w.toList.foldl (fun v x => (v <<< 8) ||| x.setWidth 32) 0

end Sys2Proof.Machine
end

