-- ==== Sys2Proof/Machine/Ops.lean ====
section
/-! DEFINITION. The named operations on the state. A busy operation has exactly one destination, which it writes and
reports in one event record (30_encoding.md R51, 20_memory.md R36, R37): `writeS`, `writeWord`, `writeCT`. Taking the
one exception is `raiseInvalidKeyLength` (60_exceptions.md R134). There is no return from it (R135): ERROR is left by
an accepted START or by reset. -/

namespace Sys2Proof.Machine

/-- Write all of `S` and report it: `before` and `after` are `S` in linear order (30_encoding.md R51). -/
def State.writeS (s : State) (opw : BitVec 10) (new : Block) : State :=
  { s with S := new, ev := some { opw := opw, before := s.S, after := new } }

/-- Write the one word `W[i]` and report it, padded with twelve zero bytes (30_encoding.md R51). -/
def State.writeWord (s : State) (opw : BitVec 10) (i : Fin 44) (new : Word) : State :=
  { s with
    W := s.W.set i.val new
    ev := some { opw := opw, before := padWord s.W[i.val], after := padWord new } }

/-- Write all of `CT` and report it (30_encoding.md R51). -/
def State.writeCT (s : State) (opw : BitVec 10) (new : Block) : State :=
  { s with CT := new, ev := some { opw := opw, before := s.CT, after := new } }

/-- Port `EV` not valid: the step performed START, reset or nothing (30_encoding.md R50). -/
def State.noEvent (s : State) : State := { s with ev := none }

/-- Move the sequencer: `pc <- p` (00_scope.md section 5). -/
def State.setPc (s : State) (p : Position) : State := { s with pc := p }

/-- The step has used the port values of one step (10_state.md R20; log entry 1). -/
def State.popInputs (s : State) : State := { s with inputs := s.inputs.tail }

/-- The ports show `i` in the next step; what comes after is unchanged. -/
def State.withInput (s : State) (i : Inputs) : State := { s with inputs := i :: s.inputs.tail }

/-- What every accepted START does first: `S`, `W` and `CT` to zero, and no event (44_sequencer.md R101). -/
def State.clearRun (s : State) : State :=
  { s with S := zeroBlock, W := zeroSchedule, CT := zeroBlock, ev := none }

/-- `(ERROR, 0, 0, 0)` (10_state.md R17). -/
def Position.error : Position := { PH := .error, KI := 0, R := 0, OPS := .sub }

/-- `(KEXP, i, 0, 0)` (10_state.md R17). -/
def Position.kexp (i : BitVec 6) : Position := { PH := .kexp, KI := i, R := 0, OPS := .sub }

/-- `raise InvalidKeyLength(len)`, the trap entry: `S`, `W`, `CT`, `KEYR`, `PTR` to zero, `ERR <- 1`,
`pc <- (ERROR,0,0,0)`. Nothing is saved, no mode changes and the length is not recorded (60_exceptions.md R131, R134). -/
def State.raiseInvalidKeyLength (s : State) : State :=
  { s with
    S := zeroBlock, W := zeroSchedule, CT := zeroBlock, KEYR := zeroBlock, PTR := zeroBlock
    ERR := .invalidKeyLength
    pc := Position.error }

/-- Latch key and plaintext, clear `ERR`, and begin the run at `(KEXP,0,0,0)` (44_sequencer.md R101). -/
def State.beginRun (s : State) (key pt : Block) : State :=
  { s with KEYR := key, PTR := pt, ERR := .none, pc := Position.kexp 0 }

/-- Go on with the next state of an outcome; a fault or a refusal stays. -/
def onNext (o : Host.Outcome State Fault Refusal) (f : State → State) : Host.Outcome State Fault Refusal :=
  match o with
  | .next s => .next (f s)
  | .fault r => .fault r
  | .refused r => .refused r

end Sys2Proof.Machine
end

