-- ==== Sys2Proof/Machine/HostCommands.lean ====
section
/-! DEFINITION. The two host commands START (44_sequencer.md R101) and RESET (70_reset_and_hazards.md R150). -/

namespace Sys2Proof.Machine

/-- An accepted START (44_sequencer.md R101): clear `S`, `W`, `CT`; with `KEYLEN ≠ 16` take InvalidKeyLength, else latch
`KEY` and `PT` and begin the run. -/
def State.acceptStart (s : State) : State :=
  if s.input.KEYLEN ≠ Config.keyBytes then s.clearRun.raiseInvalidKeyLength
  else s.clearRun.beginRun s.input.KEY s.input.PT

/-- START: accepted with `RST = 0` in IDLE, DONE and ERROR (44_sequencer.md R101); a START in a busy phase is ignored
(70_reset_and_hazards.md R153) and one beside `RST = 1` is lost (R151): it changes nothing. -/
def execStart (s : State) : Host.Outcome State Fault Refusal :=
  if s.input.RST = false ∧ s.pc.PH.acceptsStart = true then .next s.acceptStart else .next s

/-- RESET: every piece of state to its reset value, in any state, and no event (70_reset_and_hazards.md R150). The
host's lined-up inputs are ports, not state, and stay. -/
def execReset (s : State) : Host.Outcome State Fault Refusal := .next { State.reset with inputs := s.inputs }

end Sys2Proof.Machine
end

