-- ==== Sys2Proof/Machine/GaloisField.lean ====
section
/-! DEFINITION. The GF(2^8) multiplier: `XTIME`, `XTIMES`, `GFMUL` (40_gf_multiplier.md). Pure functions of bytes;
addition in the field is bitwise XOR (R60). -/

namespace Sys2Proof.Machine

/-- Multiply by x: shift left one bit; if the bit shifted out was 1, XOR with 0x1B (40_gf_multiplier.md R61). -/
def xtime (b : Byte) : Byte :=
  if b.getLsbD 7 then (b <<< 1) ^^^ Config.reductionByte else b <<< 1

/-- `a` after `i` applications of `xtime` (40_gf_multiplier.md R62). -/
def xtimes (a : Byte) : Nat → Byte
  | 0 => a
  | i + 1 => xtime (xtimes a i)

/-- One turn of the loop of 40_gf_multiplier.md R63: if `b[i] = 1`, XOR `t` into the accumulator; then `t <- XTIME(t)`. -/
def gfmulTurn (b : Byte) (acc : Byte × Byte) (i : Nat) : Byte × Byte :=
  (if b.getLsbD i then acc.1 ^^^ acc.2 else acc.1, xtime acc.2)

/-- The product in GF(2^8): the loop over ALL eight bits of `b`, bit 0 first (40_gf_multiplier.md R63, R65;
90_conflicts.md C1). -/
def gfmul (a b : Byte) : Byte :=
  ([0, 1, 2, 3, 4, 5, 6, 7].foldl (gfmulTurn b) (0, a)).1

end Sys2Proof.Machine
end

