-- ==== Sys2Proof/Machine/SubBytes.lean ====
section
/-! DEFINITION. The SubBytes lookup engine: `SubByte` (41_sbox.md R71). -/

namespace Sys2Proof.Machine

/-- `b[7:4]`, which selects the S-box row (20_memory.md R34). -/
def highNibble (b : Byte) : Fin 16 := (b.extractLsb' 4 4).toFin

/-- `b[3:0]`, which selects the S-box column (20_memory.md R34). -/
def lowNibble (b : Byte) : Fin 16 := (b.extractLsb' 0 4).toFin

/-- `SubByte(b) = SBOX[ b[7:4] ][ b[3:0] ]` (41_sbox.md R71). -/
def subByte (b : Byte) : Byte := Config.sbox[(highNibble b).val][(lowNibble b).val]

end Sys2Proof.Machine
end

