-- ==== Sys2Proof/Machine/KeySchedule.lean ====
section
/-! DEFINITION. The key-schedule expander: `RotWord`, `SubWord`, `Rcon`, the operation KSW and the function `Expand`
(42_key_schedule.md). -/

namespace Sys2Proof.Machine

/-- `[a0,a1,a2,a3] → [a1,a2,a3,a0]` (42_key_schedule.md R80). -/
def rotWord (w : Word) : Word := #v[w[1], w[2], w[3], w[0]]

/-- The S-box on each byte independently (42_key_schedule.md R81). -/
def subWord (w : Word) : Word := Vector.ofFn fun j => subByte w[j.val]

/-- `Rcon(i) = [XTIMES(0x01, i-1), 0, 0, 0]`, defined on 1..10 only: it has no value at 0
(42_key_schedule.md R82, 93_implementation_defined.md U5). -/
def rcon (i : Nat) (_ : 1 ≤ i ∧ i ≤ 10) : Word := #v[xtimes Config.rconSeed (i - 1), 0, 0, 0]

/-- The new value of `W[i]` from the latched key and the words before it (42_key_schedule.md R84; the `Nk > 6` branch
is absent, R85). -/
def kswWord (key : Block) (w : Schedule) (i : Fin 44) : Word :=
  if h4 : i.val < 4 then
    wordOfBlock key ⟨i.val, h4⟩
  else if h : i.val % 4 = 0 then
    xorWord w[i.val - 4]
      (xorWord (subWord (rotWord w[i.val - 1])) (rcon (i.val / 4) ⟨by omega, by have := i.isLt; omega⟩))
  else
    xorWord w[i.val - 4] w[i.val - 1]

/-- The operation word of KSW `i`: 0x040 + i (30_encoding.md R46). -/
def kswOpw (i : BitVec 6) : BitVec 10 := 0x040#10 + i.setWidth 10

/-- KSW `i` (42_key_schedule.md R84): writes `W[i]` only and reports it. An `arg` of 44..63 names no operation
(30_encoding.md R48). -/
def execKsw (i : BitVec 6) (s : State) : Host.Outcome State Fault Refusal :=
  if h : i.toNat < 44 then
    .next (s.writeWord (kswOpw i) ⟨i.toNat, h⟩ (kswWord s.KEYR s.W ⟨i.toNat, h⟩))
  else
    .refused (.reservedOperation (kswOpw i))

/-- One KSW on a bare schedule. -/
def kswStep (key : Block) (w : Schedule) (i : Fin 44) : Schedule := w.set i.val (kswWord key w i)

/-- `Expand(key)`: KSW 0 … KSW 43 in that order, from forty-four zero words (42_key_schedule.md R86). -/
def expand (key : Block) : Schedule := (List.finRange 44).foldl (kswStep key) zeroSchedule

end Sys2Proof.Machine
end

