-- ==== Sys2Proof/Machine/RoundTransform.lean ====
section
/-! DEFINITION. The round transforms SUB, SHR, MIX and ARK, each as a function of State and as an operation
(43_round_transforms.md). Every read is of the old `S` (20_memory.md R37). -/

namespace Sys2Proof.Machine

/-- The matrix whose byte at `(row, col)` is `f row col`, in linear order (00_scope.md R7). -/
def blockOf (f : Fin 4 → Fin 4 → Byte) : Block := Vector.ofFn fun j => f (rowOf j) (colOf j)

/-- `SubByte` on every byte (43_round_transforms.md R90). -/
def subBytes (b : Block) : Block := Vector.ofFn fun j => subByte b[j.val]

/-- `RotRowLeft(row, amt)`: byte `c` is `x[(c + amt) mod 4]` (43_round_transforms.md R91). -/
def rotRowLeft (x : Word) (amt : Nat) : Word := Vector.ofFn fun c => x[(c.val + amt) % 4]

/-- Row `r` of State, `S[r][0..3]`. -/
def rowWord (b : Block) (r : Fin 4) : Word := Vector.ofFn fun c => cell b r c

/-- Row `r` rotated left by `r` positions (43_round_transforms.md R92). -/
def shiftRows (b : Block) : Block := blockOf fun row col => (rotRowLeft (rowWord b row) row.val)[col.val]

/-- The product of one column with the matrix whose first row is 02 03 01 01 (43_round_transforms.md R93). -/
def mixColumn (s : Word) : Word :=
  #v[gfmul s[0] 0x02 ^^^ gfmul s[1] 0x03 ^^^ s[2] ^^^ s[3],
     s[0] ^^^ gfmul s[1] 0x02 ^^^ gfmul s[2] 0x03 ^^^ s[3],
     s[0] ^^^ s[1] ^^^ gfmul s[2] 0x02 ^^^ gfmul s[3] 0x03,
     gfmul s[0] 0x03 ^^^ s[1] ^^^ s[2] ^^^ gfmul s[3] 0x02]

/-- `MixColumn` on each column (43_round_transforms.md R94). -/
def mixColumns (b : Block) : Block := blockOf fun row col => (mixColumn (wordOfBlock b col))[row.val]

/-- `S[row][col] ^ W[4r + col][row]` (43_round_transforms.md R95). -/
def addRoundKey (w : Schedule) (r : Fin 11) (b : Block) : Block := xorBlock b (roundKey w r)

/-- SUB (43_round_transforms.md R90). -/
def execSub (s : State) : Host.Outcome State Fault Refusal := .next (s.writeS 0x100 (subBytes s.S))

/-- SHR (43_round_transforms.md R92). -/
def execShr (s : State) : Host.Outcome State Fault Refusal := .next (s.writeS 0x140 (shiftRows s.S))

/-- MIX (43_round_transforms.md R94). -/
def execMix (s : State) : Host.Outcome State Fault Refusal := .next (s.writeS 0x180 (mixColumns s.S))

/-- The operation word of ARK `r`: 0x0C0 + r (30_encoding.md R46). -/
def arkOpw (r : BitVec 6) : BitVec 10 := 0x0C0#10 + r.setWidth 10

/-- ARK `r` (43_round_transforms.md R95). An `arg` of 11..63 names no operation (30_encoding.md R48). -/
def execArk (r : BitVec 6) (s : State) : Host.Outcome State Fault Refusal :=
  if h : r.toNat < 11 then
    .next (s.writeS (arkOpw r) (addRoundKey s.W ⟨r.toNat, h⟩ s.S))
  else
    .refused (.reservedOperation (arkOpw r))

end Sys2Proof.Machine
end

