-- ==== Sys2Proof/Machine/Sequencer.lean ====
section
/-! DEFINITION. The round-sequencer FSM: LDS and STC (44_sequencer.md R102, R103), which operation a position performs
(`opAt`, R104), the position after it (`nextPc`, R105), the choice a step makes (R106, 60_exceptions.md R136), and the
pseudo-operations (30_encoding.md R53). -/

namespace Sys2Proof.Machine

/-- LDS (44_sequencer.md R102): `S[row][col] <- PTR[4·col+row]`, in linear order `S <- PTR`. -/
def execLds (s : State) : Host.Outcome State Fault Refusal := .next (s.writeS 0x080 s.PTR)

/-- STC (44_sequencer.md R103): `CT[4·col+row] <- S[row][col]`, in linear order `CT <- S`. -/
def execStc (s : State) : Host.Outcome State Fault Refusal := .next (s.writeCT 0x1C0 s.S)

/-- `(LOAD, 43, 0, 0)` (10_state.md R17). -/
def Position.load : Position := { PH := .load, KI := 43, R := 0, OPS := .sub }

/-- `(ROUND, 43, r, o)` (10_state.md R17). -/
def Position.round (r : BitVec 4) (o : SubStep) : Position := { PH := .round, KI := 43, R := r, OPS := o }

/-- `(STORE, 43, 10, 3)` (10_state.md R17). -/
def Position.store : Position := { PH := .store, KI := 43, R := 10, OPS := .ark }

/-- `(DONE, 43, 10, 3)` (10_state.md R17). -/
def Position.done : Position := { PH := .done, KI := 43, R := 10, OPS := .ark }

/-- `OpAt(pc)`, as the operation word of the step that starts there (44_sequencer.md R104). Defined on the 86 reachable
busy positions and nowhere else (70_reset_and_hazards.md R161). -/
def opAt (p : Position) : Option (BitVec 10) :=
  match p.PH with
  | .kexp => if p = Position.kexp p.KI ∧ p.KI.toNat < 44 then some (0x040#10 + p.KI.setWidth 10) else none
  | .load => if p = Position.load then some 0x080#10 else none
  | .round =>
    if p.KI = 43 then
      match p.OPS with
      | .sub => if 1 ≤ p.R.toNat ∧ p.R.toNat ≤ 10 then some 0x100#10 else none
      | .shr => if 1 ≤ p.R.toNat ∧ p.R.toNat ≤ 10 then some 0x140#10 else none
      | .mix => if 1 ≤ p.R.toNat ∧ p.R.toNat ≤ 9 then some 0x180#10 else none
      | .ark => if p.R.toNat ≤ 10 then some (0x0C0#10 + p.R.setWidth 10) else none
    else none
  | .store => if p = Position.store then some 0x1C0#10 else none
  | .idle | .done | .error => none

/-- `Next(pc)`, the position after a busy step (44_sequencer.md R105); none outside the busy phases. -/
def nextPc (p : Position) : Option Position :=
  match p.PH with
  | .kexp => some (if p.KI.toNat < 43 then Position.kexp (p.KI + 1) else Position.load)
  | .load => some (Position.round 0 .ark)
  | .round =>
    match p.OPS with
    | .sub => some (Position.round p.R .shr)
    | .shr => some (if p.R = 10 then Position.round 10 .ark else Position.round p.R .mix)
    | .mix => some (Position.round p.R .ark)
    | .ark => some (if p.R = 10 then Position.store else Position.round (p.R + 1) .sub)
  | .store => some Position.done
  | .idle | .done | .error => none

/-- The three positions in which the sequencer waits for START (44_sequencer.md R104, R113). -/
def Position.isWaiting (p : Position) : Bool :=
  decide (p = Position.idle) || decide (p = Position.done) || decide (p = Position.error)

/-- One of the 89 reachable positions (44_sequencer.md R104). -/
def Position.isReachable (p : Position) : Bool := p.isWaiting || (opAt p).isSome

/-- What a step does (44_sequencer.md R106). -/
inductive Choice where
  /-- A host command is performed. -/
  | command (i : Instr)
  /-- The busy operation with this word is performed and the position becomes `p`. -/
  | operation (opw : BitVec 10) (p : Position)
  /-- Nothing happens (44_sequencer.md R113). -/
  | stutter
  /-- The position is none of the 89 (70_reset_and_hazards.md R161). -/
  | unreachable
  deriving DecidableEq, Repr

/-- The choice of a step, in the order of 60_exceptions.md R136: RST first; then, if waiting, START; if busy, the
operation of the position, START ignored. -/
def State.choice (s : State) : Choice :=
  if s.input.RST then .command .reset
  else if s.pc.isWaiting then
    if s.input.START then .command .start else .stutter
  else
    match opAt s.pc, nextPc s.pc with
    | some w, some p => .operation w p
    | _, _ => .unreachable

/-- The position at which the sequencer performs an operation: the only one for KSW, LDS, ARK and STC, the first of a
run for SUB, SHR and MIX (44_sequencer.md R104). Host commands need a waiting position: IDLE. -/
def positionOf : Instr → Position
  | .ksw i => Position.kexp i
  | .lds => Position.load
  | .ark r => Position.round (r.setWidth 4) .ark
  | .sub => Position.round 1 .sub
  | .shr => Position.round 1 .shr
  | .mix => Position.round 1 .mix
  | .stc => Position.store
  | .start | .reset => Position.idle

/-- The state in which the very next step performs `i` (log entry 4): the position of the operation, and ports that ask
for nothing else; a host command is driven on its pin. -/
def State.presenting (s : State) (i : Instr) : State :=
  match i with
  | .reset => s.withInput { s.input with RST := true }
  | .start =>
    (s.withInput { s.input with RST := false, START := true }).setPc (if s.pc.isWaiting then s.pc else Position.idle)
  | .ksw _ | .lds | .ark _ | .sub | .shr | .mix | .stc =>
    (s.withInput { s.input with RST := false }).setPc (positionOf i)

/-- `KEYEXPAND` (30_encoding.md R53). -/
def pseudoKeyExpand : List Instr := (List.range 44).map fun i => .ksw (BitVec.ofNat 6 i)

/-- `ROUND r`, none for r > 10 (30_encoding.md R53, 44_sequencer.md R107). -/
def pseudoRound (r : Nat) : List Instr :=
  if r = 0 then [.ark 0]
  else if r ≤ 9 then [.sub, .shr, .mix, .ark (BitVec.ofNat 6 r)]
  else if r = 10 then [.sub, .shr, .ark 10]
  else []

/-- `ENCRYPT`: the 86 operations of a run (30_encoding.md R53). -/
def pseudoEncrypt : List Instr :=
  pseudoKeyExpand ++ [.lds] ++ (List.range 11).flatMap pseudoRound ++ [.stc]

/-- The position before step `n` of a run, counted from the step after START (44_sequencer.md R104). -/
def runPosition (n : Nat) : Position :=
  if n < 44 then Position.kexp (BitVec.ofNat 6 n)
  else if n = 44 then Position.load
  else if n = 45 then Position.round 0 .ark
  else if n < 82 then
    Position.round (BitVec.ofNat 4 ((n - 46) / 4 + 1))
      (match (n - 46) % 4 with
        | 0 => .sub
        | 1 => .shr
        | 2 => .mix
        | _ => .ark)
  else if n = 82 then Position.round 10 .sub
  else if n = 83 then Position.round 10 .shr
  else if n = 84 then Position.round 10 .ark
  else if n = 85 then Position.store
  else Position.done

end Sys2Proof.Machine
end

