-- ==== Sys2Proof/Machine/Dispatch.lean ====
section
/-! DEFINITION. One arm per instruction. -/

namespace Sys2Proof.Machine

def exec (i : Instr) (s : State) : Host.Outcome State Fault Refusal :=
  match i with
  | .ksw i1 => Sys2Proof.Machine.execKsw i1 s
  | .lds => Sys2Proof.Machine.execLds s
  | .ark r => Sys2Proof.Machine.execArk r s
  | .sub => Sys2Proof.Machine.execSub s
  | .shr => Sys2Proof.Machine.execShr s
  | .mix => Sys2Proof.Machine.execMix s
  | .stc => Sys2Proof.Machine.execStc s
  | .start => Sys2Proof.Machine.execStart s
  | .reset => Sys2Proof.Machine.execReset s

end Sys2Proof.Machine
end

