-- ==== Sys2Proof/Machine/Step.lean ====
section
/-! DEFINITION. One step of the block (44_sequencer.md R106): read the ports, choose, decode the operation word of the
position, run it with `exec`, and write the next position. Three outcomes: next state, fault, refusal. -/

namespace Sys2Proof.Machine

/-- `Step(σ, in)` with `in` the oldest of `inputs` (44_sequencer.md R106). -/
def step (s : State) : Host.Outcome State Fault Refusal :=
  match s.choice with
  | .command i => onNext (exec i s) State.popInputs
  | .operation w p =>
    match decode (.opw w) with
    | .instr i => onNext (exec i s) fun t => (t.setPc p).popInputs
    | .rejected _ => .refused (.reservedOperation w)
  | .stutter => .next s.noEvent.popInputs
  | .unreachable => .refused (.unreachablePosition s.pc)

/-- `s` made such that the very next step runs the instruction of a table row's bits; unchanged where the bits are no
instruction (log entry 4). -/
def State.withFetchWord (s : State) (nbits w : Nat) : State :=
  match decodeTableWord nbits w with
  | some i => s.presenting i
  | none => s

end Sys2Proof.Machine
end

