-- ==== Sys2Proof/Machine/Cipher.lean ====
section
/-! DEFINITION. The function the block computes, `Encrypt` (44_sequencer.md R112), and the value of `S` at each position
of a run. -/

namespace Sys2Proof.Machine

/-- A middle round: `ARK_w(r, MIX(SHR(SUB(s))))` (44_sequencer.md R112). -/
def middleRound (w : Schedule) (b : Block) (r : Fin 11) : Block :=
  addRoundKey w r (mixColumns (shiftRows (subBytes b)))

/-- The last round, MixColumns skipped: `ARK_w(10, SHR(SUB(s)))` (44_sequencer.md R107, R112). -/
def lastRound (w : Schedule) (b : Block) : Block := addRoundKey w 10 (shiftRows (subBytes b))

/-- `Encrypt(key, pt)` (44_sequencer.md R112). -/
def encrypt (key pt : Block) : Block :=
  lastRound (expand key)
    (([1, 2, 3, 4, 5, 6, 7, 8, 9] : List (Fin 11)).foldl (middleRound (expand key)) (addRoundKey (expand key) 0 pt))

/-- State after ARK `r` of a run, 0 ≤ r ≤ 9: `ARK_w(0, pt)` and then the middle rounds 1..r (44_sequencer.md R107,
R112). -/
def afterArk (w : Schedule) (pt : Block) (r : Nat) : Block :=
  ((List.range r).map fun k => Fin.ofNat 11 (k + 1)).foldl (middleRound w) (addRoundKey w 0 pt)

/-- `S` at a position of a run with schedule `w` and plaintext `pt`, before the step that starts there
(44_sequencer.md R104, R107). -/
def stateAt (w : Schedule) (pt : Block) (p : Position) : Block :=
  match p.PH with
  | .round =>
    match p.OPS with
    | .sub => afterArk w pt (p.R.toNat - 1)
    | .shr => subBytes (afterArk w pt (p.R.toNat - 1))
    | .mix => shiftRows (subBytes (afterArk w pt (p.R.toNat - 1)))
    | .ark =>
      if p.R = 0 then pt
      else if p.R = 10 then shiftRows (subBytes (afterArk w pt 9))
      else mixColumns (shiftRows (subBytes (afterArk w pt (p.R.toNat - 1))))
  | .store | .done => lastRound w (afterArk w pt 9)
  | .idle | .kexp | .load | .error => zeroBlock

end Sys2Proof.Machine
end

