-- ==== Sys2Proof/Machine/Ports.lean ====
section
/-! DEFINITION. The output ports (10_state.md R21), each a pure function of the state and, for `GFP`, of the ports `GFA`
and `GFB`. `BUSY`, `DONE` and `ERRF` stand in Flags.lean; `EV` is the field `ev`. -/

namespace Sys2Proof.Machine

/-- `CT_OUT[0..15]` (10_state.md R21). -/
def State.CT_OUT (s : State) : Block := s.CT

/-- `ERR_OUT`, 2 bits (10_state.md R21). -/
def State.ERR_OUT (s : State) : BitVec 2 := s.ERR.code

/-- `DBG_W`, the read-only view of the schedule (10_state.md R21, 70_reset_and_hazards.md R156). -/
def State.DBG_W (s : State) : Schedule := s.W

/-- `DBG_S[row][col]` (10_state.md R21, 70_reset_and_hazards.md R156). -/
def State.DBG_S (s : State) (row col : Fin 4) : Byte := cell s.S row col

/-- `PC_OUT`: the codes of `(PH, KI, R, OPS)`, 15 bits in all (10_state.md R21). The spec does not say how they are
packed, so they stay four fields. -/
def State.PC_OUT (s : State) : BitVec 3 × BitVec 6 × BitVec 4 × BitVec 2 :=
  (s.pc.PH.code, s.pc.KI, s.pc.R, s.pc.OPS.code)

/-- `GFP = GFMUL(GFA, GFB)` for given port values (40_gf_multiplier.md R66). -/
def Inputs.GFP (i : Inputs) : Byte := gfmul i.GFA i.GFB

/-- `GFP`, combinational, from the values now on `GFA` and `GFB` (40_gf_multiplier.md R66). -/
def State.GFP (s : State) : Byte := s.input.GFP

end Sys2Proof.Machine
end

