-- ==== Sys2Proof/Safety.lean ====
section
/-! DEFINITION. The terms claims are stated in: runs of several steps, the port values of a step to come, which index
spaces an instruction writes (20_memory.md R36), and the invariants of every reachable state (10_state.md R17, R18,
R24, 70_reset_and_hazards.md R155). -/

namespace Sys2Proof.Machine

/-- `n` steps, stopping at the first refusal: the host's own `Host.Core.run` of this machine. -/
abbrev run (n : Nat) (s : State) : Host.Outcome State Fault Refusal := Host.Core.run Sys2Proof.core n s

/-- The port values of step `n` counted from `s`, undriven past the end of the lined-up inputs (log entry 1). -/
def State.inputOf (s : State) (n : Nat) : Inputs := s.inputs.getD n Inputs.quiet

/-- The next step performs a busy operation if `RST = 0`: one of the 86 busy positions (44_sequencer.md R104). -/
def State.isBusyReachable (s : State) : Bool := s.pc.isReachable && s.pc.PH.isBusy

/-- A request that begins a run is on the ports and will be accepted (44_sequencer.md R101). -/
abbrev State.Starting (s : State) : Prop :=
  s.pc.isWaiting = true ∧ s.input.RST = false ∧ s.input.START = true ∧ s.input.KEYLEN = 16

/-- `ERR = 1` if and only if `PH = ERROR` (10_state.md R18). -/
abbrev State.ErrMatchesPhase (s : State) : Prop := s.ERR = .invalidKeyLength ↔ s.pc.PH = .error

/-- The position is one of the 89 and `ERR` matches it (10_state.md R17, R18, 44_sequencer.md R104). -/
abbrev State.Canonical (s : State) : Prop := s.pc.isReachable = true ∧ s.ErrMatchesPhase

/-- `CT` is zero except in DONE (70_reset_and_hazards.md R155). -/
abbrev State.CtZeroUnlessDone (s : State) : Prop := s.pc.PH ≠ .done → s.CT = zeroBlock

/-- What holds in every reachable state: the position and `ERR` are canonical; 10_state.md R24 (b) to (e); and, what
makes these inductive, `S` is the value that the run has reached at this position (44_sequencer.md R104, R107) and `CT`
is zero before STC (R155). -/
structure State.RunInvariant (s : State) : Prop where
  canonical : s.Canonical
  /-- R24 (e). -/
  zero_when_idle : s.pc.PH = .idle ∨ s.pc.PH = .error →
    s.S = zeroBlock ∧ s.W = zeroSchedule ∧ s.CT = zeroBlock ∧ s.KEYR = zeroBlock ∧ s.PTR = zeroBlock
  /-- R24 (c). -/
  schedule_prefix : s.pc.PH = .kexp →
    ∀ i : Fin 44, s.W[i.val] = if i.val < s.pc.KI.toNat then (expand s.KEYR)[i.val] else zeroWord
  /-- R24 (b). -/
  schedule_complete : s.pc.PH = .load ∨ s.pc.PH = .round ∨ s.pc.PH = .store ∨ s.pc.PH = .done → s.W = expand s.KEYR
  /-- The run has reached the value of `S` that belongs to this position. -/
  state_tracks : s.S = stateAt (expand s.KEYR) s.PTR s.pc
  /-- R155. -/
  ct_zero : s.CtZeroUnlessDone
  /-- R24 (d). -/
  result : s.pc.PH = .done → s.CT = encrypt s.KEYR s.PTR ∧ s.S = s.CT

/-- Every field but `S` and the event port is the same. -/
abbrev State.SameButS (s t : State) : Prop :=
  t.W = s.W ∧ t.KEYR = s.KEYR ∧ t.PTR = s.PTR ∧ t.CT = s.CT ∧ t.pc = s.pc ∧ t.ERR = s.ERR ∧ t.inputs = s.inputs

/-- Every field but `CT` and the event port is the same. -/
abbrev State.SameButCT (s t : State) : Prop :=
  t.S = s.S ∧ t.W = s.W ∧ t.KEYR = s.KEYR ∧ t.PTR = s.PTR ∧ t.pc = s.pc ∧ t.ERR = s.ERR ∧ t.inputs = s.inputs

/-- Every field but the word `W[i]` and the event port is the same. -/
abbrev State.SameButWord (i : Nat) (s t : State) : Prop :=
  (∀ (k : Nat) (hk : k < 44), k ≠ i → t.W[k] = s.W[k]) ∧
  t.S = s.S ∧ t.KEYR = s.KEYR ∧ t.PTR = s.PTR ∧ t.CT = s.CT ∧ t.pc = s.pc ∧ t.ERR = s.ERR ∧ t.inputs = s.inputs

/-- Every register of 10_state.md R23 is the same; the event port and the lined-up inputs may differ. -/
abbrev State.SameRegisters (s t : State) : Prop :=
  t.S = s.S ∧ t.W = s.W ∧ t.KEYR = s.KEYR ∧ t.PTR = s.PTR ∧ t.CT = s.CT ∧ t.pc = s.pc ∧ t.ERR = s.ERR

/-- The destination array of the operation with word `w`, as an event record shows it (30_encoding.md R51). -/
def State.destination (s : State) (w : BitVec 10) : Block :=
  match decodeOpw w with
  | .instr (.ksw i) => if h : i.toNat < 44 then padWord s.W[i.toNat] else zeroBlock
  | .instr .stc => s.CT
  | _ => s.S

/-- Whether instruction `i` may change byte `k` of an index space, the table of 20_memory.md R36 (RESET: 70_reset_and_hazards.md
R150). No instruction writes the S-box ROM. -/
def writesByte (i : Instr) (a : Space) (k : Nat) : Bool :=
  match i, a with
  | _, .SBOX => false
  | .ksw n, .W => decide (k / 4 = n.toNat)
  | .lds, .S | .ark _, .S | .sub, .S | .shr, .S | .mix, .S => true
  | .stc, .CT => true
  | .start, _ | .reset, _ => true
  | _, _ => false

end Sys2Proof.Machine
end

