-- ==== Sys2Proof/Certificates/Slice0/Obligations.lean ====
section
/-! DEFINITION. The statements for the provers, from the numbered rules of spec/. Each docstring names the rule it
formalises. Statements about `exec` say that an instruction completes, with its result and its frame; `exec` leaves the
pc, which `step` writes (44_sequencer.md R106). -/

open Sys2Proof Sys2Proof.Machine

/-! Encoding (30_encoding.md) -/

/-- Decoding the code of a well-formed instruction gives it back (30_encoding.md R46, R56). -/
def Obligations.DecodeOfEncodeIsIdentity : Prop :=
  ∀ i : Instr, i.WellFormed = true → decode (encode i) = .instr i

/-- A code that decodes is the code of a well-formed instruction: no two codes mean the same (30_encoding.md R46). -/
def Obligations.DecodedCodeIsTheEncoding : Prop :=
  ∀ (c : Code) (i : Instr), decode c = .instr i → encode i = c ∧ i.WellFormed = true

/-- Of the 1024 words exactly the sixty of the table decode, in this order, each to its own operation; 964 are reserved
(30_encoding.md R47). -/
def Obligations.SixtyLegalOperationWords : Prop :=
  ((List.range 1024).filterMap fun n =>
      match decodeOpw (BitVec.ofNat 10 n) with
      | .instr i => some i
      | .rejected _ => none) =
    (List.range 44).map (fun i => Instr.ksw (BitVec.ofNat 6 i)) ++ [.lds] ++
      (List.range 11).map (fun r => Instr.ark (BitVec.ofNat 6 r)) ++ [.sub, .shr, .mix, .stc] ∧
  ((List.range 1024).countP fun n =>
      match decodeOpw (BitVec.ofNat 10 n) with
      | .instr _ => false
      | .rejected _ => true) = 964 ∧
  (∀ (w : BitVec 10) (i : Instr), decodeOpw w = .instr i ↔ (i.WellFormed = true ∧ encode i = .opw w))

/-- Which words are reserved, and that an operation with a reserved word has no meaning (30_encoding.md R48). -/
def Obligations.ReservedWordsHaveNoMeaning : Prop :=
  (∀ w : BitVec 10, (∃ e, decodeOpw w = .rejected e) ↔
    (kindField w = 0 ∨ 8 ≤ (kindField w).toNat ∨ (kindField w = 1 ∧ 44 ≤ (argField w).toNat) ∨
      (kindField w = 3 ∧ 11 ≤ (argField w).toNat) ∨
      ((kindField w = 2 ∨ kindField w = 4 ∨ kindField w = 5 ∨ kindField w = 6 ∨ kindField w = 7) ∧ argField w ≠ 0))) ∧
  (∀ (i : Instr) (s : State), i.WellFormed = false →
    ∃ w e, encode i = .opw w ∧ decodeOpw w = .rejected e ∧ exec i s = .refused (.reservedOperation w))

/-- The numbers of the operation words, and the legal ranges of their arguments (30_encoding.md R46). -/
def Obligations.OperationWordsOfTheTable : Prop :=
  (∀ i : BitVec 6, i.toNat < 44 → encode (.ksw i) = .opw (0x040#10 + i.setWidth 10)) ∧
  encode .lds = .opw 0x080 ∧
  (∀ r : BitVec 6, r.toNat < 11 → encode (.ark r) = .opw (0x0C0#10 + r.setWidth 10)) ∧
  encode .sub = .opw 0x100 ∧ encode .shr = .opw 0x140 ∧ encode .mix = .opw 0x180 ∧ encode .stc = .opw 0x1C0 ∧
  (∀ i : BitVec 6, (Instr.ksw i).WellFormed = true ↔ i.toNat ≤ 43) ∧
  (∀ r : BitVec 6, (Instr.ark r).WellFormed = true ↔ r.toNat ≤ 10)

/-- Words and pins written out from the spec decode to what they stand for (30_encoding.md R46, R48, R56,
95_test_vectors.md section 2.8). -/
def Obligations.SpecEncodingsDecode : Prop :=
  decode (.opw 0b0001000000#10) = .instr (.ksw 0) ∧ decode (.opw 0b0001101011#10) = .instr (.ksw 43) ∧
  decode (.opw 0b0010000000#10) = .instr .lds ∧ decode (.opw 0b0011001010#10) = .instr (.ark 10) ∧
  decode (.opw 0b0100000000#10) = .instr .sub ∧ decode (.opw 0b0101000000#10) = .instr .shr ∧
  decode (.opw 0b0110000000#10) = .instr .mix ∧ decode (.opw 0b0111000000#10) = .instr .stc ∧
  decode (.startPin 1) = .instr .start ∧ decode (.rstPin 1) = .instr .reset ∧
  decode (.opw 0b0001101100#10) = .rejected .kswIndexOutOfRange ∧
  decode (.opw 0b0011001011#10) = .rejected .arkRoundOutOfRange ∧
  decode (.opw 0b0010000001#10) = .rejected .argumentNotZero ∧ decode (.opw 0#10) = .rejected .reservedKind ∧
  decode (.startPin 0) = .rejected .noRequest ∧ decode (.rstPin 0) = .rejected .noRequest

/-! The step (44_sequencer.md R104 to R106, R113, 60_exceptions.md R136) -/

/-- Where the word at the position decodes to a well-formed operation, and no reset is asked for, the step is `exec` of
it, then the next position is written and the step's port values are used up (44_sequencer.md R106). -/
def Obligations.StepRunsTheDecodedOperation : Prop :=
  ∀ (s : State) (w : BitVec 10) (p : Position) (i : Instr),
    s.input.RST = false → opAt s.pc = some w → nextPc s.pc = some p → decode (.opw w) = .instr i →
    i.WellFormed = true → step s = onNext (exec i s) fun t => (t.setPc p).popInputs

/-- With `RST = 1` the step is `exec` of RESET; while waiting with `START = 1` and `RST = 0` it is `exec` of START
(44_sequencer.md R106). -/
def Obligations.StepRunsTheHostCommand : Prop :=
  (∀ s : State, s.input.RST = true → step s = onNext (exec .reset s) State.popInputs) ∧
  (∀ s : State, s.input.RST = false → s.pc.isWaiting = true → s.input.START = true →
    step s = onNext (exec .start s) State.popInputs)

/-- A state made to present a well-formed instruction runs it in the very next step: the registers but the pc are those
`exec` gives, and for START and RESET the pc too. `State.presenting` is the model's own (log entry 4). -/
def Obligations.PresentedInstructionRunsNext : Prop :=
  ∀ (s : State) (i : Instr), i.WellFormed = true →
    ∃ t u, exec i (s.presenting i) = .next t ∧ step (s.presenting i) = .next u ∧
      u.S = t.S ∧ u.W = t.W ∧ u.KEYR = t.KEYR ∧ u.PTR = t.PTR ∧ u.CT = t.CT ∧ u.ERR = t.ERR ∧ u.ev = t.ev ∧
      u.pc = (match i with
        | .start | .reset => t.pc
        | _ => (nextPc (positionOf i)).getD t.pc)

/-- In IDLE, DONE and ERROR steps without START and without reset change no register and emit nothing, for any number
of steps; a busy position always advances (44_sequencer.md R113). -/
def Obligations.StutterChangesNothing : Prop :=
  (∀ (n : Nat) (s : State), s.pc.isWaiting = true →
    (∀ k < n, (s.inputOf k).RST = false ∧ (s.inputOf k).START = false) →
    ∃ t, run n s = .next t ∧ s.SameRegisters t ∧ (0 < n → t.ev = none) ∧ t.inputs = s.inputs.drop n) ∧
  (∀ s : State, s.isBusyReachable = true → s.input.RST = false →
    ∃ t, step s = .next t ∧ nextPc s.pc = some t.pc ∧ t.pc ≠ s.pc)

/-- The sequencer never produces a reserved word, and from each of the 89 positions a step answers a next state: derived
in the spec (30_encoding.md R48, 44_sequencer.md R106, 70_reset_and_hazards.md R161). From any other position, without
reset, a step is refused: the model's choice (log entry 5) between the two ways that R161 offers. -/
def Obligations.StepIsTotalOnReachablePositions : Prop :=
  (∀ (p : Position) (w : BitVec 10), opAt p = some w → ∃ i, decodeOpw w = .instr i ∧ i.WellFormed = true) ∧
  (∀ s : State, s.pc.isReachable = true → ∃ t, step s = .next t) ∧
  (∀ s : State, s.pc.isReachable = false → s.input.RST = false → step s = .refused (.unreachablePosition s.pc))

/-- A step with `RST = 1`, in any state and whatever else the ports ask for, gives the reset state and no event; held,
it keeps the block there; a busy position is left early in no other way (70_reset_and_hazards.md R150, R151). -/
def Obligations.ResetOverridesEverything : Prop :=
  (∀ s : State, s.input.RST = true → step s = .next { State.reset with inputs := s.inputs.tail }) ∧
  (∀ (n : Nat) (s : State), 0 < n → (∀ k < n, (s.inputOf k).RST = true) →
    run n s = .next { State.reset with inputs := s.inputs.drop n }) ∧
  (∀ s t : State, s.isBusyReachable = true → step s = .next t → nextPc s.pc ≠ some t.pc → s.input.RST = true)

/-- While busy, without reset, the ports have no effect at all: any two port values give the same step
(70_reset_and_hazards.md R153). -/
def Obligations.PortsIgnoredWhileBusy : Prop :=
  ∀ (s : State) (i j : Inputs), s.isBusyReachable = true → i.RST = false → j.RST = false →
    step (s.withInput i) = step (s.withInput j)

/-- `KEY`, `PT` and `KEYLEN` are read only in the step that accepts START (70_reset_and_hazards.md R157). -/
def Obligations.KeyPortsReadOnlyByStart : Prop :=
  ∀ (s : State) (key pt : Block) (len : Byte),
    s.input.RST = true ∨ s.input.START = false ∨ s.pc.isWaiting = false →
    step (s.withInput { s.input with KEY := key, PT := pt, KEYLEN := len }) = step s

/-- `GFP = GFMUL(GFA, GFB)` in every state, whatever the other ports show; the operands have no effect on any step;
`XTIME(b)` is on the port as `GFMUL(b, 0x02)` (40_gf_multiplier.md R66). -/
def Obligations.MultiplierPortIsCombinational : Prop :=
  (∀ (s : State) (a b : Byte), (s.withInput { s.input with GFA := a, GFB := b }).GFP = gfmul a b ∧
    step (s.withInput { s.input with GFA := a, GFB := b }) = step s) ∧
  (∀ s t : State, s.input.GFA = t.input.GFA → s.input.GFB = t.input.GFB → s.GFP = t.GFP) ∧
  (∀ b : Byte, gfmul b 0x02 = xtime b)

/-- The observer has no way in: what the event port shows never changes a step (44_sequencer.md R109). -/
def Obligations.ObserverCannotInfluence : Prop :=
  (∀ (s : State) (e : Option Event), step { s with ev := e } = step s) ∧
  (∀ (n : Nat) (s : State) (e : Option Event), 0 < n → run n { s with ev := e } = run n s)

/-! The run (30_encoding.md R53, 44_sequencer.md R104, R107 to R112, 70_reset_and_hazards.md R154, R160) -/

/-- `KEYEXPAND` is KSW 0..43, `ROUND r` the row of the round table, `ENCRYPT` their 86 operations, and nothing stands
beyond round 10 (30_encoding.md R53). -/
def Obligations.PseudoOperationsExpand : Prop :=
  pseudoKeyExpand.length = 44 ∧ (∀ i < 44, pseudoKeyExpand[i]? = some (.ksw (BitVec.ofNat 6 i))) ∧
  pseudoRound 0 = [.ark 0] ∧
  (∀ r, 1 ≤ r → r ≤ 9 → pseudoRound r = [.sub, .shr, .mix, .ark (BitVec.ofNat 6 r)]) ∧
  pseudoRound 10 = [.sub, .shr, .ark 10] ∧ (∀ r, 10 < r → pseudoRound r = []) ∧
  pseudoEncrypt = pseudoKeyExpand ++ [.lds] ++
    (pseudoRound 0 ++ pseudoRound 1 ++ pseudoRound 2 ++ pseudoRound 3 ++ pseudoRound 4 ++ pseudoRound 5 ++
      pseudoRound 6 ++ pseudoRound 7 ++ pseudoRound 8 ++ pseudoRound 9 ++ pseudoRound 10) ++ [.stc] ∧
  pseudoEncrypt.length = 86 ∧ (∀ i : BitVec 6, 43 < i.toNat → (Instr.ksw i).WellFormed = false)

/-- The run of an accepted START stands before step `n` at the table's position `n`, whose operation is the `n`-th of
ENCRYPT; the reachable positions are exactly IDLE, ERROR, DONE and these 86, all different (44_sequencer.md R104). -/
def Obligations.RunVisitsTheTable : Prop :=
  (∀ n < 86, ∃ w i, opAt (runPosition n) = some w ∧ decodeOpw w = .instr i ∧ pseudoEncrypt[n]? = some i) ∧
  (∀ p : Position, p.isReachable = true ↔
    p = Position.idle ∨ p = Position.error ∨ p = Position.done ∨ ∃ n < 86, p = runPosition n) ∧
  (∀ m n, m < 87 → n < 87 → runPosition m = runPosition n → m = n) ∧
  (∀ p : Position, p.PH = .idle ∨ p.PH = .done ∨ p.PH = .error → opAt p = none) ∧
  (∀ (s : State) (n : Nat), s.Starting → n ≤ 86 → (∀ k ≤ n, (s.inputOf k).RST = false) →
    ∃ t, run (n + 1) s = .next t ∧ t.pc = runPosition n)

/-- From an accepted START with `KEYLEN = 16` and no reset the block is busy before each of 86 steps and then DONE,
whatever the key, the plaintext and the other inputs (44_sequencer.md R110). That a busy position always advances is in
`StutterChangesNothing`. -/
def Obligations.RunTerminatesAfterExactly86Steps : Prop :=
  ∀ s : State, s.Starting → (∀ k ≤ 86, (s.inputOf k).RST = false) →
    (∀ n < 86, ∃ t, run (n + 1) s = .next t ∧ t.BUSY = true ∧ t.DONE = false) ∧
    ∃ t, run 87 s = .next t ∧ t.DONE = true

/-- At the end of a run, and until the next START or reset, `CT = Encrypt(KEYR, PTR)` for the key and plaintext that
START sampled, `W = Expand(KEYR)`, `S` equals `CT`, `DONE = 1`, `BUSY = 0`, `ERR = 0`; a rejected request ends in ERROR
with no result (44_sequencer.md R111). -/
def Obligations.RunComputesTheCiphertext : Prop :=
  (∀ (s : State) (n : Nat), s.Starting → 86 ≤ n → (∀ k ≤ n, (s.inputOf k).RST = false) →
    (∀ k, 86 < k → k ≤ n → (s.inputOf k).START = false) →
    ∃ t, run (n + 1) s = .next t ∧ t.KEYR = s.input.KEY ∧ t.PTR = s.input.PT ∧ t.CT = encrypt s.input.KEY s.input.PT ∧
      t.W = expand s.input.KEY ∧ t.S = t.CT ∧ t.DONE = true ∧ t.BUSY = false ∧ t.ERR = .none) ∧
  (∀ s : State, s.pc.isWaiting = true → s.input.RST = false → s.input.START = true → s.input.KEYLEN ≠ 16 →
    ∃ t, step s = .next t ∧ t.pc.PH = .error ∧ t.CT = zeroBlock)

/-- For a fixed key, `Encrypt` is a bijection on blocks. Derived in the spec (44_sequencer.md R112), and it rests on the
S-box being a permutation. -/
def Obligations.EncryptIsABijection : Prop := ∀ key : Block, Function.Bijective (encrypt key)

/-- Nothing of one run reaches the next: two waiting states with the same ports take an accepted START to the same
state, whatever they held before (70_reset_and_hazards.md R154). -/
def Obligations.NothingPersistsAcrossRuns : Prop :=
  ∀ s t : State, s.pc.isWaiting = true → t.pc.isWaiting = true → s.inputs = t.inputs → s.input.RST = false →
    s.input.START = true → ∃ u, step s = .next u ∧ step t = .next u ∧ u.S = zeroBlock ∧ u.W = zeroSchedule ∧ u.CT = zeroBlock

/-- START is a level: held, a new request is taken in the first waiting step, each run samples `KEY`, `PT`, `KEYLEN`
anew, DONE is seen at one step boundary only, and with `KEYLEN ≠ 16` ERROR is entered again in every step
(70_reset_and_hazards.md R160). -/
def Obligations.HeldStartRunsBackToBack : Prop :=
  (∀ s : State, s.Starting → (∀ k ≤ 87, (s.inputOf k).RST = false ∧ (s.inputOf k).START = true) →
    ∃ t u, run 87 s = .next t ∧ t.DONE = true ∧ run 88 s = .next u ∧ u.DONE = false ∧
      ((s.inputOf 87).KEYLEN = 16 →
        u.pc = Position.kexp 0 ∧ u.KEYR = (s.inputOf 87).KEY ∧ u.PTR = (s.inputOf 87).PT ∧ u.CT = zeroBlock) ∧
      ((s.inputOf 87).KEYLEN ≠ 16 → u.pc = Position.error) ∧
      ∀ n < 86, ∃ v, run (n + 1) s = .next v ∧ v.DONE = false) ∧
  (∀ (s : State) (n : Nat), s.pc.isWaiting = true → 0 < n →
    (∀ k < n, (s.inputOf k).RST = false ∧ (s.inputOf k).START = true ∧ (s.inputOf k).KEYLEN ≠ 16) →
    ∃ t, run n s = .next t ∧ t.pc = Position.error ∧ t.ERR = .invalidKeyLength)

/-- Every busy step puts one record on the port, with the word of its operation and the destination before and after;
START, reset and a stutter put none (30_encoding.md R50, R51). -/
def Obligations.BusyStepEmitsItsRecord : Prop :=
  (∀ (s : State) (w : BitVec 10), opAt s.pc = some w → s.input.RST = false →
    ∃ t, step s = .next t ∧ t.ev = some { opw := w, before := s.destination w, after := t.destination w }) ∧
  (∀ s t : State, step s = .next t → s.input.RST = true ∨ s.pc.isWaiting = true → t.ev = none)

/-- In every KSW, LDS and STC record of a state that meets the run invariant, `before` is zero; between two records of
`S` that follow one another, `after` is the next one's `before`. Derived in the spec (30_encoding.md R51,
44_sequencer.md R108). -/
def Obligations.EventRecordsFitTogether : Prop :=
  (∀ s t : State, s.RunInvariant → s.input.RST = false → s.pc.PH = .kexp ∨ s.pc.PH = .load ∨ s.pc.PH = .store →
    step s = .next t → ∃ e, t.ev = some e ∧ e.before = zeroBlock) ∧
  (∀ (s t u : State) (e f : Event), s.input.RST = false → t.input.RST = false → s.isBusyReachable = true →
    t.pc.PH = .round → step s = .next t → step t = .next u → t.ev = some e → u.ev = some f → f.before = e.after)

/-- A run emits 86 records, one in each of its steps, whose operations are those of ENCRYPT in order, with the destination
before and after the step: 44 KSW, 1 LDS, 11 ARK, 10 SUB, 10 SHR, 9 MIX, 1 STC (44_sequencer.md R108). -/
def Obligations.RunEmitsTheEncryptTrace : Prop :=
  (∀ (s : State) (n : Nat), s.Starting → n < 86 → (∀ k ≤ n + 1, (s.inputOf k).RST = false) →
    ∃ t u w i, run (n + 1) s = .next t ∧ run (n + 2) s = .next u ∧
      u.ev = some { opw := w, before := t.destination w, after := u.destination w } ∧ decodeOpw w = .instr i ∧
      pseudoEncrypt[n]? = some i) ∧
  pseudoEncrypt.length = 86 ∧
  pseudoEncrypt.countP (fun i => match i with | .ksw _ => true | _ => false) = 44 ∧
  pseudoEncrypt.count .lds = 1 ∧
  pseudoEncrypt.countP (fun i => match i with | .ark _ => true | _ => false) = 11 ∧
  pseudoEncrypt.count .sub = 10 ∧ pseudoEncrypt.count .shr = 10 ∧ pseudoEncrypt.count .mix = 9 ∧
  pseudoEncrypt.count .stc = 1

/-! The operations (42_key_schedule.md, 43_round_transforms.md, 44_sequencer.md) -/

/-- KSW `i` writes `W[i]` only: the key word for i < 4; else `W[i-4] ^ W[i-1]`, where for i mod 4 = 0 the word `W[i-1]`
is first rotated left one byte, substituted, and its byte 0 XORed with the `(i/4-1)`-fold `XTIME` of 0x01. It reports
the word, and the sequencer performs KSW in the order of `i` (42_key_schedule.md R84). -/
def Obligations.KswComputesTheScheduleWord : Prop :=
  (∀ (i : Nat) (hi : i < 44) (s : State), ∃ t, exec (.ksw (BitVec.ofNat 6 i)) s = .next t ∧
    (∀ (_ : i < 4) (j : Fin 4), t.W[i][j.val] = s.KEYR[4 * i + j.val]) ∧
    (∀ (_ : 4 ≤ i) (j : Fin 4), i % 4 ≠ 0 → t.W[i][j.val] = s.W[i - 4][j.val] ^^^ s.W[i - 1][j.val]) ∧
    (∀ (_ : 4 ≤ i) (j : Fin 4), i % 4 = 0 → t.W[i][j.val] = s.W[i - 4][j.val] ^^^
      (subByte (s.W[i - 1][(j.val + 1) % 4]'(Nat.mod_lt _ (by decide))) ^^^
        (if j.val = 0 then xtimes 0x01 (i / 4 - 1) else 0))) ∧
    s.SameButWord i t ∧
    t.ev = some { opw := BitVec.ofNat 10 (0x040 + i), before := padWord s.W[i], after := padWord t.W[i] }) ∧
  (∀ n < 44, opAt (runPosition n) = some (BitVec.ofNat 10 (0x040 + n)))

/-- LDS places the latched plaintext down the columns of `S` and overwrites all of it (44_sequencer.md R102). -/
def Obligations.LdsPlacesThePlaintext : Prop :=
  ∀ s : State, ∃ t, exec .lds s = .next t ∧
    (∀ row col : Fin 4, cell t.S row col = s.PTR[4 * col.val + row.val]) ∧ t.S = s.PTR ∧
    s.SameButS t ∧ t.ev = some { opw := 0x080, before := s.S, after := t.S }

/-- STC reads `S` out to `CT` with the inverse placement and does not change `S`; LDS then STC would copy `PTR` to `CT`;
in the run it ends in DONE (44_sequencer.md R103). -/
def Obligations.StcStoresTheCiphertext : Prop :=
  (∀ s : State, ∃ t, exec .stc s = .next t ∧
    (∀ row col : Fin 4, t.CT[4 * col.val + row.val] = cell s.S row col) ∧
    s.SameButCT t ∧ t.ev = some { opw := 0x1C0, before := s.CT, after := t.CT }) ∧
  (∀ s t u : State, exec .lds s = .next t → exec .stc t = .next u → u.CT = s.PTR) ∧
  (∀ s : State, opAt s.pc = some 0x1C0 → s.input.RST = false →
    ∃ t, step s = .next t ∧ t.DONE = true ∧ t.BUSY = false ∧ t.CT = s.S)

/-- SUB replaces every byte of `S` with its SubByte, each lane on its own (43_round_transforms.md R90). -/
def Obligations.SubReplacesEveryByte : Prop :=
  ∀ s : State, ∃ t, exec .sub s = .next t ∧ (∀ row col : Fin 4, cell t.S row col = subByte (cell s.S row col)) ∧
    s.SameButS t ∧ t.ev = some { opw := 0x100, before := s.S, after := t.S }

/-- SHR rotates row `r` left by `r` positions, all reads before any write; in linear indices too; row 0, and a State of
four equal columns, is unchanged (43_round_transforms.md R92). -/
def Obligations.ShrRotatesEachRow : Prop :=
  ∀ s : State, ∃ t, exec .shr s = .next t ∧
    (∀ row col : Fin 4, cell t.S row col = cell s.S row (col + row)) ∧
    (∀ row col : Fin 4, t.S[4 * col.val + row.val] = s.S[4 * ((col.val + row.val) % 4) + row.val]) ∧
    (∀ col : Fin 4, cell t.S 0 col = cell s.S 0 col) ∧
    ((∀ row col : Fin 4, cell s.S row col = cell s.S row 0) → t.S = s.S) ∧
    s.SameButS t ∧ t.ev = some { opw := 0x140, before := s.S, after := t.S }

/-- MIX multiplies each column by the matrix with first row 02 03 01 01, and the sequencer issues it in rounds 1..9 only
(43_round_transforms.md R93, R94). -/
def Obligations.MixMultipliesEachColumn : Prop :=
  (∀ s : State, ∃ t, exec .mix s = .next t ∧
    (∀ c : Fin 4,
      cell t.S 0 c = gfmul (cell s.S 0 c) 0x02 ^^^ gfmul (cell s.S 1 c) 0x03 ^^^ cell s.S 2 c ^^^ cell s.S 3 c ∧
      cell t.S 1 c = cell s.S 0 c ^^^ gfmul (cell s.S 1 c) 0x02 ^^^ gfmul (cell s.S 2 c) 0x03 ^^^ cell s.S 3 c ∧
      cell t.S 2 c = cell s.S 0 c ^^^ cell s.S 1 c ^^^ gfmul (cell s.S 2 c) 0x02 ^^^ gfmul (cell s.S 3 c) 0x03 ∧
      cell t.S 3 c = gfmul (cell s.S 0 c) 0x03 ^^^ cell s.S 1 c ^^^ cell s.S 2 c ^^^ gfmul (cell s.S 3 c) 0x02) ∧
    s.SameButS t ∧ t.ev = some { opw := 0x180, before := s.S, after := t.S }) ∧
  (∀ p : Position, opAt p = some 0x180 → 1 ≤ p.R.toNat ∧ p.R.toNat ≤ 9)

/-- ARK `r` XORs word `W[4r + col]` onto column `col`, byte `row` onto row `row`; done twice with the same round key it
gives `S` back (43_round_transforms.md R95). -/
def Obligations.ArkXorsTheRoundKey : Prop :=
  (∀ (r : Nat) (hr : r < 11) (s : State), ∃ t, exec (.ark (BitVec.ofNat 6 r)) s = .next t ∧
    (∀ row col : Fin 4, cell t.S row col = cell s.S row col ^^^ s.W[4 * r + col.val][row.val]) ∧
    s.SameButS t ∧ t.ev = some { opw := BitVec.ofNat 10 (0x0C0 + r), before := s.S, after := t.S }) ∧
  (∀ (r : BitVec 6) (s t u : State), exec (.ark r) s = .next t → exec (.ark r) t = .next u → u.S = s.S)

/-- START, by cases: accepted with length 16; accepted with another length; ignored while busy or beside a reset. In a
step, BUSY or ERRF becomes 1 and DONE 0 (44_sequencer.md R101). -/
def Obligations.StartBeginsARun : Prop :=
  (∀ s : State, s.input.RST = false → s.pc.PH.acceptsStart = true → s.input.KEYLEN = 16 →
    exec .start s = .next
      { s with
        S := zeroBlock, W := zeroSchedule, CT := zeroBlock, KEYR := s.input.KEY, PTR := s.input.PT
        ERR := .none, pc := { PH := .kexp, KI := 0, R := 0, OPS := .sub }, ev := none }) ∧
  (∀ s : State, s.input.RST = false → s.pc.PH.acceptsStart = true → s.input.KEYLEN ≠ 16 →
    exec .start s = .next
      { s with
        S := zeroBlock, W := zeroSchedule, CT := zeroBlock, KEYR := zeroBlock, PTR := zeroBlock
        ERR := .invalidKeyLength, pc := { PH := .error, KI := 0, R := 0, OPS := .sub }, ev := none }) ∧
  (∀ s : State, s.input.RST = true ∨ s.pc.PH.isBusy = true → exec .start s = .next s) ∧
  (∀ s : State, s.pc.isWaiting = true → s.input.RST = false → s.input.START = true →
    ∃ t, step s = .next t ∧ t.BUSY = decide (s.input.KEYLEN = 16) ∧ t.ERRF = decide (s.input.KEYLEN ≠ 16) ∧
      t.DONE = false)

/-- RESET leaves every register at its reset value, in any state, the outputs at 0 and no event (10_state.md R25). -/
def Obligations.ResetLeavesTheResetValues : Prop :=
  ∀ s : State, ∃ t, exec .reset s = .next t ∧ (∀ row col : Fin 4, cell t.S row col = 0) ∧
    (∀ (i : Fin 44) (j : Fin 4), t.W[i.val][j.val] = 0) ∧ (∀ j : Fin 16, t.KEYR[j.val] = 0) ∧
    (∀ j : Fin 16, t.PTR[j.val] = 0) ∧ (∀ j : Fin 16, t.CT[j.val] = 0) ∧ t.PC_OUT = (0, 0, 0, 0) ∧ t.ERR_OUT = 0 ∧
    t.BUSY = false ∧ t.DONE = false ∧ t.ERRF = false ∧ t.ev = none ∧ t.inputs = s.inputs

/-- The seven data operations complete on any state and raise nothing: `ERR` is unchanged, and `PH` is not ERROR unless it
was; and a busy step neither changes `ERR` nor goes to ERROR. `XTIME`, `GFMUL` and `SubByte` are total functions of bytes
and have no state to raise in (60_exceptions.md R137). START and RESET: `StartBeginsARun`, `ResetLeavesTheResetValues`. -/
def Obligations.DataOperationsCannotFail : Prop :=
  (∀ (i : Instr) (s : State), i.WellFormed = true → i ≠ .start → i ≠ .reset →
    ∃ t, exec i s = .next t ∧ t.ERR = s.ERR ∧ t.ERR_OUT = s.ERR_OUT ∧ (t.pc.PH = .error → s.pc.PH = .error)) ∧
  (∀ s : State, s.isBusyReachable = true → s.input.RST = false →
    ∃ t, step s = .next t ∧ t.ERR = s.ERR ∧ t.ERRF = false)

/-! The exception, and what may write what (60_exceptions.md, 20_memory.md R36) -/

/-- The trap entry: data registers zero, `ERR = 1`, pc (ERROR,0,0,0), ERRF 1, ERR_OUT 1, BUSY 0, DONE 0, no event, no
saved value; `ERR` becomes 1 in no other way (60_exceptions.md R131, R134). -/
def Obligations.InvalidKeyLengthIsTaken : Prop :=
  (∀ s : State, s.pc.isWaiting = true → s.input.RST = false → s.input.START = true → s.input.KEYLEN ≠ 16 →
    ∃ t, step s = .next t ∧ t.S = zeroBlock ∧ t.W = zeroSchedule ∧ t.CT = zeroBlock ∧ t.KEYR = zeroBlock ∧
      t.PTR = zeroBlock ∧ t.ERR = .invalidKeyLength ∧ t.pc = { PH := .error, KI := 0, R := 0, OPS := .sub } ∧
      t.ERRF = true ∧ t.ERR_OUT = 1 ∧ t.BUSY = false ∧ t.DONE = false ∧ t.ev = none ∧ t.inputs = s.inputs.tail) ∧
  (∀ s t : State, step s = .next t → t.ERR = .invalidKeyLength → s.ERR ≠ .invalidKeyLength →
    s.pc.isWaiting = true ∧ s.input.RST = false ∧ s.input.START = true ∧ s.input.KEYLEN ≠ 16)

/-- ERROR is left only by START with length 16, which clears `ERR` and begins a run, or by reset; START with another
length enters it again; there is no other way out (60_exceptions.md R135). -/
def Obligations.ErrorIsLeftOnlyByStartOrReset : Prop :=
  ∀ s : State, s.pc = Position.error → ∃ t, step s = .next t ∧
    (s.input.RST = true → t.pc = Position.idle ∧ t.ERR = .none) ∧
    (s.input.RST = false → s.input.START = true → s.input.KEYLEN = 16 → t.pc = Position.kexp 0 ∧ t.ERR = .none ∧
      t.KEYR = s.input.KEY ∧ t.PTR = s.input.PT ∧ t.S = zeroBlock ∧ t.W = zeroSchedule ∧ t.CT = zeroBlock) ∧
    (s.input.RST = false → s.input.START = true → s.input.KEYLEN ≠ 16 →
      t.pc = Position.error ∧ t.ERR = .invalidKeyLength) ∧
    (s.input.RST = false → s.input.START = false → s.SameRegisters t)

/-- An instruction changes only the bytes of its destination, over all six index spaces, and no operation but START and
RESET changes `ERR`: derived in the spec (20_memory.md R36). That `exec` of an operation leaves the pc is the model's
choice (log entry 8): the write of the pc that R36 gives every operation is made by `step`, after `exec` (44_sequencer.md
R106), and `StepRunsTheDecodedOperation` states it. -/
def Obligations.InstructionsWriteOnlyTheirDestination : Prop :=
  ∀ (i : Instr) (s t : State), exec i s = .next t →
    (∀ (a : Space) (k : Nat), writesByte i a k = false → t.byteAt a k = s.byteAt a k) ∧
    t.inputs = s.inputs ∧ (i ≠ .start → i ≠ .reset → t.pc = s.pc ∧ t.ERR = s.ERR)

/-- Once complete, the schedule changes only by an accepted START, which zeroises it whatever the key, or by reset
(42_key_schedule.md R87). -/
def Obligations.ScheduleIsImmutableOnceBuilt : Prop :=
  (∀ s t : State, s.pc.PH = .load ∨ s.pc.PH = .round ∨ s.pc.PH = .store ∨ s.pc.PH = .done → step s = .next t →
    s.input.RST = false → (s.pc.isWaiting = false ∨ s.input.START = false) → t.W = s.W) ∧
  (∀ s t : State, s.pc.isWaiting = true → s.input.RST = false → s.input.START = true → step s = .next t →
    t.W = zeroSchedule)

/-! Invariants that every step keeps (10_state.md R17, R18, R24, 70_reset_and_hazards.md R155, R161) -/

/-- Every step keeps the position among the 89 and `ERR = 1` exactly in ERROR. Derived in the spec (10_state.md R18,
70_reset_and_hazards.md R161). -/
def Obligations.EveryStepKeepsThePositionCanonical : Prop :=
  ∀ s t : State, s.Canonical → step s = .next t → t.Canonical

/-- Every step keeps `CT` zero outside DONE. Derived in the spec (70_reset_and_hazards.md R155). -/
def Obligations.EveryStepKeepsCtZeroUnlessDone : Prop :=
  ∀ s t : State, s.CtZeroUnlessDone → step s = .next t → t.CtZeroUnlessDone

/-- Every step keeps the run invariant: the schedule is the expansion of the latched key as far as built, `S` is the
value of the run at this position, and in DONE `CT` is the ciphertext. Derived in the spec (10_state.md R24). -/
def Obligations.EveryStepKeepsTheRunInvariant : Prop :=
  ∀ s t : State, s.RunInvariant → step s = .next t → t.RunInvariant

/-- The reset state meets the run invariant. -/
def Obligations.ResetMeetsTheRunInvariant : Prop := State.reset.RunInvariant

/-- The status outputs are functions of `PH`; at most one is 1, and all are 0 exactly in IDLE (10_state.md R19). Beside
them what the other ports of R21 show: the codes of `PH` and `OPS` (R16) with `KI` and `R`, the code of `ERR` (R18), `CT`,
`W` and `S`. The four fields of `PC_OUT` stand apart: how they are packed is not claimed (log entry 10). -/
def Obligations.StatusOutputsFollowThePhase : Prop :=
  (∀ s : State,
    (s.BUSY = true ↔ s.pc.PH = .kexp ∨ s.pc.PH = .load ∨ s.pc.PH = .round ∨ s.pc.PH = .store) ∧
    (s.DONE = true ↔ s.pc.PH = .done) ∧ (s.ERRF = true ↔ s.pc.PH = .error) ∧
    ¬(s.BUSY = true ∧ s.DONE = true) ∧ ¬(s.BUSY = true ∧ s.ERRF = true) ∧ ¬(s.DONE = true ∧ s.ERRF = true) ∧
    ((s.BUSY = false ∧ s.DONE = false ∧ s.ERRF = false) ↔ s.pc.PH = .idle)) ∧
  (∀ s : State,
    (s.PC_OUT.1 = 0 ↔ s.pc.PH = .idle) ∧ (s.PC_OUT.1 = 1 ↔ s.pc.PH = .kexp) ∧ (s.PC_OUT.1 = 2 ↔ s.pc.PH = .load) ∧
    (s.PC_OUT.1 = 3 ↔ s.pc.PH = .round) ∧ (s.PC_OUT.1 = 4 ↔ s.pc.PH = .store) ∧ (s.PC_OUT.1 = 5 ↔ s.pc.PH = .done) ∧
    (s.PC_OUT.1 = 6 ↔ s.pc.PH = .error) ∧ s.PC_OUT.1 ≠ 7 ∧ s.PC_OUT.2.1 = s.pc.KI ∧ s.PC_OUT.2.2.1 = s.pc.R ∧
    (s.PC_OUT.2.2.2 = 0 ↔ s.pc.OPS = .sub) ∧ (s.PC_OUT.2.2.2 = 1 ↔ s.pc.OPS = .shr) ∧
    (s.PC_OUT.2.2.2 = 2 ↔ s.pc.OPS = .mix) ∧ (s.PC_OUT.2.2.2 = 3 ↔ s.pc.OPS = .ark)) ∧
  (∀ s : State,
    (s.ERR_OUT = 0 ↔ s.ERR = .none) ∧ (s.ERR_OUT = 1 ↔ s.ERR = .invalidKeyLength) ∧ s.CT_OUT = s.CT ∧ s.DBG_W = s.W ∧
    ∀ row col : Fin 4, s.DBG_S row col = s.S[4 * col.val + row.val])

/-! The combinational functions (40_gf_multiplier.md, 41_sbox.md, 42_key_schedule.md, 43_round_transforms.md) -/

/-- XTIME bit by bit, and it is a bijection. Derived in the spec (40_gf_multiplier.md R61). -/
def Obligations.XtimeBitEquations : Prop :=
  (∀ b : Byte,
    (xtime b).getLsbD 7 = b.getLsbD 6 ∧ (xtime b).getLsbD 6 = b.getLsbD 5 ∧ (xtime b).getLsbD 5 = b.getLsbD 4 ∧
    (xtime b).getLsbD 4 = (b.getLsbD 3 ^^ b.getLsbD 7) ∧ (xtime b).getLsbD 3 = (b.getLsbD 2 ^^ b.getLsbD 7) ∧
    (xtime b).getLsbD 2 = b.getLsbD 1 ∧ (xtime b).getLsbD 1 = (b.getLsbD 0 ^^ b.getLsbD 7) ∧
    (xtime b).getLsbD 0 = b.getLsbD 7) ∧
  Function.Bijective xtime

/-- GFMUL is the XOR of `XTIMES(a, i)` over the set bits `i` of `b`, in whatever order the eight bits are taken
(40_gf_multiplier.md R63). -/
def Obligations.GfmulIsTheXorOfShiftedOperands : Prop :=
  ∀ (a b : Byte) (order : List Nat), order.Perm [0, 1, 2, 3, 4, 5, 6, 7] →
    gfmul a b = order.foldl (fun acc i => if b.getLsbD i then acc ^^^ xtimes a i else acc) 0

/-- Identity and annihilator (40_gf_multiplier.md R64). -/
def Obligations.GfmulIdentityAndAnnihilator : Prop := ∀ a : Byte, gfmul a 1 = a ∧ gfmul a 0 = 0

/-- The loop over seven bits differs from GFMUL exactly when bit 7 of `b` is set and `a ≠ 0`. Derived in the spec
(40_gf_multiplier.md R65). -/
def Obligations.GfmulUsesAllEightBits : Prop :=
  ∀ a b : Byte, gfmul a b ≠ ([0, 1, 2, 3, 4, 5, 6].foldl (gfmulTurn b) (0, a)).1 ↔ (b.getLsbD 7 = true ∧ a ≠ 0)

/-- The field laws. Derived in the spec (40_gf_multiplier.md R67). -/
def Obligations.GfmulFieldLaws : Prop :=
  (∀ a b : Byte, gfmul a b = gfmul b a) ∧ (∀ a b c : Byte, gfmul a (b ^^^ c) = gfmul a b ^^^ gfmul a c) ∧
  (∀ a b c : Byte, gfmul (gfmul a b) c = gfmul a (gfmul b c)) ∧
  (∀ a b : Byte, gfmul a b = 0 ↔ a = 0 ∨ b = 0) ∧ (∀ a : Byte, a ≠ 0 → ∃! b, gfmul a b = 1)

/-- RotWord moves byte `(j+1) mod 4` to byte `j`; four times it is the identity, fewer times not; equal bytes stay
(42_key_schedule.md R80). -/
def Obligations.RotWordIsCyclic : Prop :=
  (∀ (w : Word) (j : Fin 4), (rotWord w)[j.val] = w[(j.val + 1) % 4]'(Nat.mod_lt _ (by decide))) ∧
  (∀ w : Word, rotWord^[4] w = w) ∧ (∀ k, 0 < k → k < 4 → ∃ w : Word, rotWord^[k] w ≠ w) ∧
  (∀ b : Byte, rotWord #v[b, b, b, b] = #v[b, b, b, b])

/-- SubWord acts on each byte alone, so it commutes with RotWord. Its values rest on the S-box table, which the spec
gives from general knowledge (42_key_schedule.md section 1, R84). -/
def Obligations.SubWordCommutesWithRotWord : Prop :=
  (∀ (w : Word) (j : Fin 4), (subWord w)[j.val] = subByte w[j.val]) ∧
  (∀ w : Word, subWord (rotWord w) = rotWord (subWord w))

/-- `Rcon(i)` has byte 0 from 0x01 by `i-1` applications of XTIME, through the reduction at 9, and bytes 1..3 zero
(42_key_schedule.md R82). -/
def Obligations.RconIsPowersOfX : Prop :=
  (∀ (i : Nat) (h : 1 ≤ i ∧ i ≤ 10), (rcon i h)[0] = xtime^[i - 1] 0x01 ∧ (rcon i h)[1] = 0 ∧ (rcon i h)[2] = 0 ∧
    (rcon i h)[3] = 0) ∧
  (rcon 9 (by decide))[0] = 0x1B ∧ (rcon 10 (by decide))[0] = 0x36

/-- The S-box is a permutation with no fixed and no opposite fixed point. Derived in the spec from its table
(41_sbox.md R73). -/
def Obligations.SboxIsAPermutationWithoutFixedPoints : Prop :=
  Function.Bijective subByte ∧ (∀ b : Byte, subByte b ≠ b) ∧ (∀ b : Byte, subByte b ≠ b ^^^ 0xFF)

/-- Every S-box entry is the affine image of the field inverse: an independent check of the table. The spec gives it
from general knowledge (41_sbox.md R72). -/
def Obligations.SboxMeetsItsConstruction : Prop :=
  ∀ v u : Byte, (v = 0 ∧ u = 0) ∨ gfmul v u = 1 →
    subByte v = u ^^^ u.rotateLeft 1 ^^^ u.rotateLeft 2 ^^^ u.rotateLeft 3 ^^^ u.rotateLeft 4 ^^^ 0x63

/-- RotRowLeft: byte `c` is byte `(c + amt) mod 4`; by 0 and by 4 it is the identity (43_round_transforms.md R91). -/
def Obligations.RotRowLeftIsCyclic : Prop :=
  (∀ (x : Word) (amt : Nat) (c : Fin 4), (rotRowLeft x amt)[c.val] = x[(c.val + amt) % 4]'(Nat.mod_lt _ (by decide))) ∧
  (∀ x : Word, rotRowLeft x 0 = x ∧ rotRowLeft x 4 = x)

/-- The laws of the round transforms: SUB and SHR commute; each of the four is a bijection; SHR and MIX are linear over
XOR, SUB is not; SHR and MIX have order 4, four applications giving the identity and fewer not; ARK is its own inverse,
and its round key is sixteen consecutive schedule bytes in linear order. Derived in the spec (43_round_transforms.md R92,
R95, R96); that SUB is a bijection and not linear rests on the S-box table (log entry 6). -/
def Obligations.RoundTransformLaws : Prop :=
  (∀ b : Block, shiftRows (subBytes b) = subBytes (shiftRows b)) ∧
  Function.Bijective subBytes ∧ Function.Bijective shiftRows ∧ Function.Bijective mixColumns ∧
  (∀ (w : Schedule) (r : Fin 11), Function.Bijective (addRoundKey w r)) ∧
  (∀ a b : Block, shiftRows (xorBlock a b) = xorBlock (shiftRows a) (shiftRows b)) ∧
  (∀ a b : Block, mixColumns (xorBlock a b) = xorBlock (mixColumns a) (mixColumns b)) ∧
  (∃ a b : Block, subBytes (xorBlock a b) ≠ xorBlock (subBytes a) (subBytes b)) ∧
  (∀ b : Block, shiftRows^[4] b = b) ∧ (∀ k, 0 < k → k < 4 → ∃ b : Block, shiftRows^[k] b ≠ b) ∧
  (∀ b : Block, mixColumns^[4] b = b) ∧ (∀ k, 0 < k → k < 4 → ∃ b : Block, mixColumns^[k] b ≠ b) ∧
  (∀ (w : Schedule) (r : Fin 11) (b : Block), addRoundKey w r (addRoundKey w r b) = b) ∧
  (∀ (w : Schedule) (r : Fin 11) (j : Fin 16), scheduleByte w (16 * r.val + j.val) = some (roundKey w r)[j.val])

/-- MixColumn in its XTIME form, and linear over XOR; a column of equal bytes is unchanged. Derived in the spec
(43_round_transforms.md R93, 40_gf_multiplier.md R68). -/
def Obligations.MixColumnXtimeForm : Prop :=
  (∀ s : Word, mixColumn s =
    #v[xtime s[0] ^^^ xtime s[1] ^^^ s[1] ^^^ s[2] ^^^ s[3], s[0] ^^^ xtime s[1] ^^^ xtime s[2] ^^^ s[2] ^^^ s[3],
       s[0] ^^^ s[1] ^^^ xtime s[2] ^^^ xtime s[3] ^^^ s[3], xtime s[0] ^^^ s[0] ^^^ s[1] ^^^ s[2] ^^^ xtime s[3]]) ∧
  (∀ a b : Word, mixColumn (xorWord a b) = xorWord (mixColumn a) (mixColumn b)) ∧
  (∀ v : Byte, mixColumn #v[v, v, v, v] = #v[v, v, v, v])

/-- `Expand` begins with the key, satisfies the recurrence of KSW at every word, and is injective. Derived in the spec
(42_key_schedule.md R86). -/
def Obligations.ExpandSolvesTheRecurrence : Prop :=
  (∀ (key : Block) (i j : Fin 4), (expand key)[i.val][j.val] = key[4 * i.val + j.val]) ∧
  (∀ (key : Block) (i : Fin 44), (expand key)[i.val] = kswWord key (expand key) i) ∧ Function.Injective expand

/-- On a 128-bit vector byte `j` stands in bits `127-8j : 120-8j`; on a 32-bit one `a0` in bits 31:24
(20_memory.md R33). -/
def Obligations.WideBusPacking : Prop :=
  (∀ (b : Block) (j : Fin 16), (packBlock b).extractLsb' (120 - 8 * j.val) 8 = b[j.val]) ∧
  (∀ (w : Word) (j : Fin 4), (packWord w).extractLsb' (24 - 8 * j.val) 8 = w[j.val])
end

