-- ==== Sys2Proof/Laws/Data.lean ====
section
/-! SUPPORT. The small lemmas of the data operations: each says what one byte or one word of a result is. -/

namespace Sys2Proof

@[simp] theorem zeroBlock_getElem (j : Nat) (h : j < 16) : zeroBlock[j] = 0 := by simp [zeroBlock]

@[simp] theorem zeroWord_getElem (j : Nat) (h : j < 4) : zeroWord[j] = 0 := by simp [zeroWord]

@[simp] theorem zeroSchedule_getElem (i : Nat) (h : i < 44) : zeroSchedule[i] = zeroWord := by simp [zeroSchedule]

@[simp] theorem xorWord_getElem (a b : Word) (j : Nat) (h : j < 4) : (xorWord a b)[j] = a[j] ^^^ b[j] := by
  simp [xorWord]

@[simp] theorem xorBlock_getElem (a b : Block) (j : Nat) (h : j < 16) : (xorBlock a b)[j] = a[j] ^^^ b[j] := by
  simp [xorBlock]

/-- XOR with the same block twice gives the block back (40_gf_multiplier.md R67 (a)). -/
theorem xorBlock_xorBlock_cancel (a b : Block) : xorBlock (xorBlock a b) b = a := by
  refine Vector.ext fun j h => ?_
  simp

@[simp] theorem rowOf_lin (row col : Fin 4) : rowOf (lin row col) = row := by
  ext; simp only [rowOf, lin]; omega

@[simp] theorem colOf_lin (row col : Fin 4) : colOf (lin row col) = col := by
  ext; simp only [colOf, lin]; omega

@[simp] theorem lin_rowOf_colOf (j : Fin 16) : lin (rowOf j) (colOf j) = j := by
  ext; simp only [rowOf, colOf, lin]; omega

/-- Two blocks with the same cells are equal. -/
theorem Block.ext_cell {a b : Block} (h : ∀ row col, cell a row col = cell b row col) : a = b := by
  refine Vector.ext fun j hj => ?_
  have := h (rowOf ⟨j, hj⟩) (colOf ⟨j, hj⟩)
  simpa [cell] using this

@[simp] theorem cell_zeroBlock (row col : Fin 4) : cell zeroBlock row col = 0 := by simp [cell]

@[simp] theorem cell_xorBlock (a b : Block) (row col : Fin 4) :
    cell (xorBlock a b) row col = cell a row col ^^^ cell b row col := by simp [cell]

end Sys2Proof

namespace Sys2Proof.Machine

@[simp] theorem cell_blockOf (f : Fin 4 → Fin 4 → Byte) (row col : Fin 4) : cell (blockOf f) row col = f row col := by
  simp [cell, blockOf]

@[simp] theorem cell_subBytes (b : Block) (row col : Fin 4) : cell (subBytes b) row col = subByte (cell b row col) := by
  simp [cell, subBytes]

@[simp] theorem rotRowLeft_getElem (x : Word) (amt c : Nat) (h : c < 4) :
    (rotRowLeft x amt)[c] = x[(c + amt) % 4]'(Nat.mod_lt _ (by decide)) := by simp [rotRowLeft]

@[simp] theorem rowWord_getElem (b : Block) (r : Fin 4) (c : Nat) (h : c < 4) :
    (rowWord b r)[c] = cell b r ⟨c, h⟩ := by simp [rowWord]

/-- ShiftRows moves the byte at column `col + row` to column `col` (43_round_transforms.md R92). -/
@[simp] theorem cell_shiftRows (b : Block) (row col : Fin 4) :
    cell (shiftRows b) row col = cell b row (col + row) := by
  simp only [shiftRows, cell_blockOf, rotRowLeft_getElem, rowWord_getElem]
  rfl

@[simp] theorem wordOfBlock_getElem (b : Block) (c : Fin 4) (j : Nat) (h : j < 4) :
    (wordOfBlock b c)[j] = cell b ⟨j, h⟩ c := by simp [wordOfBlock, cell, lin]

@[simp] theorem cell_mixColumns (b : Block) (row col : Fin 4) :
    cell (mixColumns b) row col = (mixColumn (wordOfBlock b col))[row.val] := by simp [mixColumns]

@[simp] theorem cell_roundKey (w : Schedule) (r : Fin 11) (row col : Fin 4) :
    cell (roundKey w r) row col = (w[4 * r.val + col.val]'(by omega))[row.val] := by
  simp [cell, roundKey]

@[simp] theorem cell_addRoundKey (w : Schedule) (r : Fin 11) (b : Block) (row col : Fin 4) :
    cell (addRoundKey w r b) row col = cell b row col ^^^ (w[4 * r.val + col.val]'(by omega))[row.val] := by
  simp [addRoundKey]

/-- AddRoundKey with the same round key twice gives the State back (43_round_transforms.md R95). -/
theorem addRoundKey_involutive (w : Schedule) (r : Fin 11) (b : Block) :
    addRoundKey w r (addRoundKey w r b) = b := xorBlock_xorBlock_cancel b _

@[simp] theorem subWord_getElem (w : Word) (j : Nat) (h : j < 4) : (subWord w)[j] = subByte w[j] := by
  simp [subWord]

@[simp] theorem rotWord_getElem (w : Word) (j : Nat) (h : j < 4) :
    (rotWord w)[j] = w[(j + 1) % 4]'(Nat.mod_lt _ (by decide)) := by
  interval_cases j <;> rfl

/-- Byte 0 of Rcon is the power of x, the others are zero (42_key_schedule.md R82). -/
@[simp] theorem rcon_getElem (i : Nat) (hi : 1 ≤ i ∧ i ≤ 10) (j : Nat) (h : j < 4) :
    (rcon i hi)[j] = if j = 0 then xtimes Config.rconSeed (i - 1) else 0 := by
  interval_cases j <;> rfl

@[simp] theorem padWord_getElem (w : Word) (j : Nat) (h : j < 16) :
    (padWord w)[j] = if h4 : j < 4 then w[j] else 0 := by simp [padWord]

@[simp] theorem padWord_zeroWord : padWord zeroWord = zeroBlock := by decide

/-- KSW below 4 takes the key word (42_key_schedule.md R84). -/
theorem kswWord_key (key : Block) (w : Schedule) (i : Fin 44) (h : i.val < 4) :
    kswWord key w i = wordOfBlock key ⟨i.val, h⟩ := by simp [kswWord, h]

/-- KSW at a multiple of 4 from 4 on (42_key_schedule.md R84). -/
theorem kswWord_core (key : Block) (w : Schedule) (i : Fin 44) (h4 : 4 ≤ i.val) (h : i.val % 4 = 0) :
    kswWord key w i = xorWord w[i.val - 4] (xorWord (subWord (rotWord w[i.val - 1]))
      (rcon (i.val / 4) ⟨by omega, by have := i.isLt; omega⟩)) := by
  simp [kswWord, h, Nat.not_lt.mpr h4]

/-- KSW elsewhere from 4 on (42_key_schedule.md R84). -/
theorem kswWord_plain (key : Block) (w : Schedule) (i : Fin 44) (h4 : 4 ≤ i.val) (h : i.val % 4 ≠ 0) :
    kswWord key w i = xorWord w[i.val - 4] w[i.val - 1] := by
  simp [kswWord, h, Nat.not_lt.mpr h4]

/-- KSW `i` reads the schedule below `i` only (42_key_schedule.md R84). -/
theorem kswWord_congr {key : Block} {w v : Schedule} {i : Fin 44}
    (h : ∀ k (hk : k < 44), k < i.val → w[k] = v[k]) : kswWord key w i = kswWord key v i := by
  by_cases h4 : i.val < 4
  · rw [kswWord_key _ _ _ h4, kswWord_key _ _ _ h4]
  · have h1 := h (i.val - 1) (by omega) (by omega)
    have h2 := h (i.val - 4) (by omega) (by omega)
    by_cases hm : i.val % 4 = 0
    · rw [kswWord_core _ _ _ (by omega) hm, kswWord_core _ _ _ (by omega) hm, h1, h2]
    · rw [kswWord_plain _ _ _ (by omega) hm, kswWord_plain _ _ _ (by omega) hm, h1, h2]

end Sys2Proof.Machine
end

