-- ==== Sys2Proof/Laws/State.lean ====
section
/-! SUPPORT. One lemma per field per update of the state, true by rfl, so that no proof unfolds a record update. -/

namespace Sys2Proof.Machine

variable (s : State)

@[simp] theorem State.writeS_S (opw : BitVec 10) (new : Block) : (s.writeS opw new).S = new := rfl
@[simp] theorem State.writeS_W (opw : BitVec 10) (new : Block) : (s.writeS opw new).W = s.W := rfl
@[simp] theorem State.writeS_KEYR (opw : BitVec 10) (new : Block) : (s.writeS opw new).KEYR = s.KEYR := rfl
@[simp] theorem State.writeS_PTR (opw : BitVec 10) (new : Block) : (s.writeS opw new).PTR = s.PTR := rfl
@[simp] theorem State.writeS_CT (opw : BitVec 10) (new : Block) : (s.writeS opw new).CT = s.CT := rfl
@[simp] theorem State.writeS_pc (opw : BitVec 10) (new : Block) : (s.writeS opw new).pc = s.pc := rfl
@[simp] theorem State.writeS_ERR (opw : BitVec 10) (new : Block) : (s.writeS opw new).ERR = s.ERR := rfl
@[simp] theorem State.writeS_ev (opw : BitVec 10) (new : Block) : (s.writeS opw new).ev = some { opw := opw, before := s.S, after := new } := rfl
@[simp] theorem State.writeS_inputs (opw : BitVec 10) (new : Block) : (s.writeS opw new).inputs = s.inputs := rfl

@[simp] theorem State.writeWord_S (opw : BitVec 10) (i : Fin 44) (new : Word) : (s.writeWord opw i new).S = s.S := rfl
@[simp] theorem State.writeWord_W (opw : BitVec 10) (i : Fin 44) (new : Word) : (s.writeWord opw i new).W = s.W.set i.val new := rfl
@[simp] theorem State.writeWord_KEYR (opw : BitVec 10) (i : Fin 44) (new : Word) : (s.writeWord opw i new).KEYR = s.KEYR := rfl
@[simp] theorem State.writeWord_PTR (opw : BitVec 10) (i : Fin 44) (new : Word) : (s.writeWord opw i new).PTR = s.PTR := rfl
@[simp] theorem State.writeWord_CT (opw : BitVec 10) (i : Fin 44) (new : Word) : (s.writeWord opw i new).CT = s.CT := rfl
@[simp] theorem State.writeWord_pc (opw : BitVec 10) (i : Fin 44) (new : Word) : (s.writeWord opw i new).pc = s.pc := rfl
@[simp] theorem State.writeWord_ERR (opw : BitVec 10) (i : Fin 44) (new : Word) : (s.writeWord opw i new).ERR = s.ERR := rfl
@[simp] theorem State.writeWord_ev (opw : BitVec 10) (i : Fin 44) (new : Word) : (s.writeWord opw i new).ev = some { opw := opw, before := padWord s.W[i.val], after := padWord new } := rfl
@[simp] theorem State.writeWord_inputs (opw : BitVec 10) (i : Fin 44) (new : Word) : (s.writeWord opw i new).inputs = s.inputs := rfl

@[simp] theorem State.writeCT_S (opw : BitVec 10) (new : Block) : (s.writeCT opw new).S = s.S := rfl
@[simp] theorem State.writeCT_W (opw : BitVec 10) (new : Block) : (s.writeCT opw new).W = s.W := rfl
@[simp] theorem State.writeCT_KEYR (opw : BitVec 10) (new : Block) : (s.writeCT opw new).KEYR = s.KEYR := rfl
@[simp] theorem State.writeCT_PTR (opw : BitVec 10) (new : Block) : (s.writeCT opw new).PTR = s.PTR := rfl
@[simp] theorem State.writeCT_CT (opw : BitVec 10) (new : Block) : (s.writeCT opw new).CT = new := rfl
@[simp] theorem State.writeCT_pc (opw : BitVec 10) (new : Block) : (s.writeCT opw new).pc = s.pc := rfl
@[simp] theorem State.writeCT_ERR (opw : BitVec 10) (new : Block) : (s.writeCT opw new).ERR = s.ERR := rfl
@[simp] theorem State.writeCT_ev (opw : BitVec 10) (new : Block) : (s.writeCT opw new).ev = some { opw := opw, before := s.CT, after := new } := rfl
@[simp] theorem State.writeCT_inputs (opw : BitVec 10) (new : Block) : (s.writeCT opw new).inputs = s.inputs := rfl

@[simp] theorem State.noEvent_S : (s.noEvent).S = s.S := rfl
@[simp] theorem State.noEvent_W : (s.noEvent).W = s.W := rfl
@[simp] theorem State.noEvent_KEYR : (s.noEvent).KEYR = s.KEYR := rfl
@[simp] theorem State.noEvent_PTR : (s.noEvent).PTR = s.PTR := rfl
@[simp] theorem State.noEvent_CT : (s.noEvent).CT = s.CT := rfl
@[simp] theorem State.noEvent_pc : (s.noEvent).pc = s.pc := rfl
@[simp] theorem State.noEvent_ERR : (s.noEvent).ERR = s.ERR := rfl
@[simp] theorem State.noEvent_ev : (s.noEvent).ev = none := rfl
@[simp] theorem State.noEvent_inputs : (s.noEvent).inputs = s.inputs := rfl

@[simp] theorem State.setPc_S (p : Position) : (s.setPc p).S = s.S := rfl
@[simp] theorem State.setPc_W (p : Position) : (s.setPc p).W = s.W := rfl
@[simp] theorem State.setPc_KEYR (p : Position) : (s.setPc p).KEYR = s.KEYR := rfl
@[simp] theorem State.setPc_PTR (p : Position) : (s.setPc p).PTR = s.PTR := rfl
@[simp] theorem State.setPc_CT (p : Position) : (s.setPc p).CT = s.CT := rfl
@[simp] theorem State.setPc_pc (p : Position) : (s.setPc p).pc = p := rfl
@[simp] theorem State.setPc_ERR (p : Position) : (s.setPc p).ERR = s.ERR := rfl
@[simp] theorem State.setPc_ev (p : Position) : (s.setPc p).ev = s.ev := rfl
@[simp] theorem State.setPc_inputs (p : Position) : (s.setPc p).inputs = s.inputs := rfl

@[simp] theorem State.popInputs_S : (s.popInputs).S = s.S := rfl
@[simp] theorem State.popInputs_W : (s.popInputs).W = s.W := rfl
@[simp] theorem State.popInputs_KEYR : (s.popInputs).KEYR = s.KEYR := rfl
@[simp] theorem State.popInputs_PTR : (s.popInputs).PTR = s.PTR := rfl
@[simp] theorem State.popInputs_CT : (s.popInputs).CT = s.CT := rfl
@[simp] theorem State.popInputs_pc : (s.popInputs).pc = s.pc := rfl
@[simp] theorem State.popInputs_ERR : (s.popInputs).ERR = s.ERR := rfl
@[simp] theorem State.popInputs_ev : (s.popInputs).ev = s.ev := rfl
@[simp] theorem State.popInputs_inputs : (s.popInputs).inputs = s.inputs.tail := rfl

@[simp] theorem State.withInput_S (i : Inputs) : (s.withInput i).S = s.S := rfl
@[simp] theorem State.withInput_W (i : Inputs) : (s.withInput i).W = s.W := rfl
@[simp] theorem State.withInput_KEYR (i : Inputs) : (s.withInput i).KEYR = s.KEYR := rfl
@[simp] theorem State.withInput_PTR (i : Inputs) : (s.withInput i).PTR = s.PTR := rfl
@[simp] theorem State.withInput_CT (i : Inputs) : (s.withInput i).CT = s.CT := rfl
@[simp] theorem State.withInput_pc (i : Inputs) : (s.withInput i).pc = s.pc := rfl
@[simp] theorem State.withInput_ERR (i : Inputs) : (s.withInput i).ERR = s.ERR := rfl
@[simp] theorem State.withInput_ev (i : Inputs) : (s.withInput i).ev = s.ev := rfl
@[simp] theorem State.withInput_inputs (i : Inputs) : (s.withInput i).inputs = i :: s.inputs.tail := rfl

@[simp] theorem State.clearRun_S : (s.clearRun).S = zeroBlock := rfl
@[simp] theorem State.clearRun_W : (s.clearRun).W = zeroSchedule := rfl
@[simp] theorem State.clearRun_KEYR : (s.clearRun).KEYR = s.KEYR := rfl
@[simp] theorem State.clearRun_PTR : (s.clearRun).PTR = s.PTR := rfl
@[simp] theorem State.clearRun_CT : (s.clearRun).CT = zeroBlock := rfl
@[simp] theorem State.clearRun_pc : (s.clearRun).pc = s.pc := rfl
@[simp] theorem State.clearRun_ERR : (s.clearRun).ERR = s.ERR := rfl
@[simp] theorem State.clearRun_ev : (s.clearRun).ev = none := rfl
@[simp] theorem State.clearRun_inputs : (s.clearRun).inputs = s.inputs := rfl

@[simp] theorem State.raiseInvalidKeyLength_S : (s.raiseInvalidKeyLength).S = zeroBlock := rfl
@[simp] theorem State.raiseInvalidKeyLength_W : (s.raiseInvalidKeyLength).W = zeroSchedule := rfl
@[simp] theorem State.raiseInvalidKeyLength_KEYR : (s.raiseInvalidKeyLength).KEYR = zeroBlock := rfl
@[simp] theorem State.raiseInvalidKeyLength_PTR : (s.raiseInvalidKeyLength).PTR = zeroBlock := rfl
@[simp] theorem State.raiseInvalidKeyLength_CT : (s.raiseInvalidKeyLength).CT = zeroBlock := rfl
@[simp] theorem State.raiseInvalidKeyLength_pc : (s.raiseInvalidKeyLength).pc = Position.error := rfl
@[simp] theorem State.raiseInvalidKeyLength_ERR : (s.raiseInvalidKeyLength).ERR = .invalidKeyLength := rfl
@[simp] theorem State.raiseInvalidKeyLength_ev : (s.raiseInvalidKeyLength).ev = s.ev := rfl
@[simp] theorem State.raiseInvalidKeyLength_inputs : (s.raiseInvalidKeyLength).inputs = s.inputs := rfl

@[simp] theorem State.beginRun_S (key pt : Block) : (s.beginRun key pt).S = s.S := rfl
@[simp] theorem State.beginRun_W (key pt : Block) : (s.beginRun key pt).W = s.W := rfl
@[simp] theorem State.beginRun_KEYR (key pt : Block) : (s.beginRun key pt).KEYR = key := rfl
@[simp] theorem State.beginRun_PTR (key pt : Block) : (s.beginRun key pt).PTR = pt := rfl
@[simp] theorem State.beginRun_CT (key pt : Block) : (s.beginRun key pt).CT = s.CT := rfl
@[simp] theorem State.beginRun_pc (key pt : Block) : (s.beginRun key pt).pc = Position.kexp 0 := rfl
@[simp] theorem State.beginRun_ERR (key pt : Block) : (s.beginRun key pt).ERR = .none := rfl
@[simp] theorem State.beginRun_ev (key pt : Block) : (s.beginRun key pt).ev = s.ev := rfl
@[simp] theorem State.beginRun_inputs (key pt : Block) : (s.beginRun key pt).inputs = s.inputs := rfl

@[simp] theorem State.withInput_input (i : Inputs) : (s.withInput i).input = i := rfl

@[simp] theorem State.withInput_popInputs (i : Inputs) : (s.withInput i).popInputs = s.popInputs := rfl

/-- The oldest of the lined-up inputs is the input of step 0. -/
theorem State.input_eq_head {i : Inputs} {rest : List Inputs} (h : s.inputs = i :: rest) : s.input = i := by
  simp [State.input, h]

end Sys2Proof.Machine
end

