-- ==== Sys2Proof/Laws/Step.lean ====
section
/-! SUPPORT. What the shared operations and one step can do, said once: the provers cite these and unfold nothing. -/

namespace Sys2Proof.Machine

@[simp] theorem onNext_next (s : State) (f : State → State) : onNext (.next s) f = .next (f s) := rfl

/-- `onNext` answers a next state only through one. -/
theorem onNext_eq_next {o : Host.Outcome State Fault Refusal} {f : State → State} {t : State} :
    onNext o f = .next t ↔ ∃ s, o = .next s ∧ t = f s := by
  cases o <;> simp [onNext, eq_comm]

/-- Everything a KSW can do. -/
theorem execKsw_eq {i : BitVec 6} (h : i.toNat < 44) (s : State) :
    execKsw i s = .next (s.writeWord (kswOpw i) ⟨i.toNat, h⟩ (kswWord s.KEYR s.W ⟨i.toNat, h⟩)) := by
  simp [execKsw, h]

/-- Everything an ARK can do. -/
theorem execArk_eq {r : BitVec 6} (h : r.toNat < 11) (s : State) :
    execArk r s = .next (s.writeS (arkOpw r) (addRoundKey s.W ⟨r.toNat, h⟩ s.S)) := by
  simp [execArk, h]

/-! Each operation without an argument is one write (30_encoding.md R51). -/

theorem exec_lds (s : State) : exec .lds s = .next (s.writeS 0x080 s.PTR) := rfl

theorem exec_sub (s : State) : exec .sub s = .next (s.writeS 0x100 (subBytes s.S)) := rfl

theorem exec_shr (s : State) : exec .shr s = .next (s.writeS 0x140 (shiftRows s.S)) := rfl

theorem exec_mix (s : State) : exec .mix s = .next (s.writeS 0x180 (mixColumns s.S)) := rfl

theorem exec_stc (s : State) : exec .stc s = .next (s.writeCT 0x1C0 s.S) := rfl

theorem exec_reset (s : State) : exec .reset s = .next { State.reset with inputs := s.inputs } := rfl

/-- What an accepted START with the right length does (44_sequencer.md R101). -/
theorem acceptStart_of_length (s : State) (h : s.input.KEYLEN = 16) :
    s.acceptStart = s.clearRun.beginRun s.input.KEY s.input.PT := by
  simp [State.acceptStart, Config.keyBytes, h]

/-- What an accepted START with another length does (44_sequencer.md R101, 60_exceptions.md R134). -/
theorem acceptStart_of_bad_length (s : State) (h : s.input.KEYLEN ≠ 16) :
    s.acceptStart = s.clearRun.raiseInvalidKeyLength := if_pos h

/-- START in a waiting phase without reset is accepted. -/
theorem execStart_accepted (s : State) (h : s.input.RST = false) (hp : s.pc.PH.acceptsStart = true) :
    execStart s = .next s.acceptStart := by simp [execStart, h, hp]

/-- The operation of a position, as an instruction with its next position (44_sequencer.md R104, R105). -/
inductive PositionCase : Position → Instr → Position → Prop where
  | ksw (i : BitVec 6) (h : i.toNat < 43) : PositionCase (Position.kexp i) (.ksw i) (Position.kexp (i + 1))
  | lastKsw : PositionCase (Position.kexp 43) (.ksw 43) Position.load
  | lds : PositionCase Position.load .lds (Position.round 0 .ark)
  | sub (r : BitVec 4) (h : 1 ≤ r.toNat ∧ r.toNat ≤ 10) :
      PositionCase (Position.round r .sub) .sub (Position.round r .shr)
  | shr (r : BitVec 4) (h : 1 ≤ r.toNat ∧ r.toNat ≤ 9) :
      PositionCase (Position.round r .shr) .shr (Position.round r .mix)
  | lastShr : PositionCase (Position.round 10 .shr) .shr (Position.round 10 .ark)
  | mix (r : BitVec 4) (h : 1 ≤ r.toNat ∧ r.toNat ≤ 9) :
      PositionCase (Position.round r .mix) .mix (Position.round r .ark)
  | ark (r : BitVec 4) (h : r.toNat ≤ 9) :
      PositionCase (Position.round r .ark) (.ark (r.setWidth 6)) (Position.round (r + 1) .sub)
  | lastArk : PositionCase (Position.round 10 .ark) (.ark 10) Position.store
  | stc : PositionCase Position.store .stc Position.done

/-- Every position with an operation is one of these cases, and its word decodes to that instruction. -/
theorem opAt_cases {p : Position} {w : BitVec 10} (h : opAt p = some w) :
    ∃ i q, PositionCase p i q ∧ nextPc p = some q ∧ decode (.opw w) = .instr i ∧ i.WellFormed = true := by
  obtain ⟨ph, ki, r, o⟩ := p
  cases ph
  case kexp =>
    simp only [opAt] at h
    split at h
    next hc =>
      obtain ⟨hp, hk⟩ := hc
      injection hp with _ _ hr ho
      subst hr ho
      injection h with h
      subst h
      by_cases h43 : ki.toNat < 43
      · refine ⟨_, _, .ksw ki h43, by simp [nextPc, h43], ?_, by simpa [Instr.WellFormed] using hk⟩
        revert hk
        revert ki
        decide
      · obtain rfl : ki = 43 := by
          apply BitVec.eq_of_toNat_eq
          simp
          omega
        exact ⟨_, _, .lastKsw, rfl, by decide, by decide⟩
    next => exact absurd h (by simp)
  case load =>
    simp only [opAt] at h
    split at h
    next hc =>
      rw [hc]
      injection h with h
      subst h
      exact ⟨_, _, .lds, rfl, by decide, rfl⟩
    next => exact absurd h (by simp)
  case store =>
    simp only [opAt] at h
    split at h
    next hc =>
      rw [hc]
      injection h with h
      subst h
      exact ⟨_, _, .stc, rfl, by decide, rfl⟩
    next => exact absurd h (by simp)
  case round =>
    simp only [opAt] at h
    split at h
    next hk =>
      subst hk
      cases o
      case sub =>
        dsimp only at h
        split at h
        next hr =>
          injection h with h
          subst h
          exact ⟨_, _, .sub r hr, rfl, by decide, rfl⟩
        next => exact absurd h (by simp)
      case shr =>
        dsimp only at h
        split at h
        next hr =>
          injection h with h
          subst h
          by_cases h10 : r = 10
          · subst h10
            exact ⟨_, _, .lastShr, rfl, by decide, rfl⟩
          · have h9 : r.toNat ≤ 9 := by
              have : r.toNat ≠ 10 := fun e => h10 (BitVec.eq_of_toNat_eq (by simpa using e))
              omega
            exact ⟨_, _, .shr r ⟨hr.1, h9⟩, congrArg some (if_neg h10), by decide, rfl⟩
        next => exact absurd h (by simp)
      case mix =>
        dsimp only at h
        split at h
        next hr =>
          injection h with h
          subst h
          exact ⟨_, _, .mix r hr, rfl, by decide, rfl⟩
        next => exact absurd h (by simp)
      case ark =>
        dsimp only at h
        split at h
        next hr =>
          injection h with h
          subst h
          by_cases h10 : r = 10
          · subst h10
            exact ⟨_, _, .lastArk, rfl, by decide, by decide⟩
          · have h9 : r.toNat ≤ 9 := by
              have : r.toNat ≠ 10 := fun e => h10 (BitVec.eq_of_toNat_eq (by simpa using e))
              omega
            refine ⟨_, _, .ark r h9, congrArg some (if_neg h10), ?_, ?_⟩ <;>
            · revert h9
              clear hr h10
              revert r
              decide
        next => exact absurd h (by simp)
    next => exact absurd h (by simp)
  all_goals exact absurd h (by simp [opAt])

/-- A position with an operation is no waiting position. -/
theorem isWaiting_of_opAt {p : Position} {w : BitVec 10} (h : opAt p = some w) : p.isWaiting = false := by
  cases hw : p.isWaiting
  · rfl
  · simp only [Position.isWaiting, Bool.or_eq_true, decide_eq_true_eq] at hw
    rcases hw with (rfl | rfl) | rfl <;> cases h

/-- No position after a busy step is ERROR (44_sequencer.md R105). -/
theorem nextPc_ne_error {p q : Position} (h : nextPc p = some q) : q.PH ≠ .error := by
  rcases p with ⟨ph, k, r, o⟩
  cases ph <;> cases o <;> simp only [nextPc, Option.some.injEq, reduceCtorEq] at h <;>
    (try split at h) <;> subst h <;> exact Phase.noConfusion

/-- Everything an operation can do when it answers a next state: one write with its event record
(20_memory.md R36). -/
theorem exec_cases {i : Instr} {s u : State} (h1 : i ≠ .start) (h2 : i ≠ .reset) (hu : exec i s = .next u) :
    (∃ w k new, u = s.writeWord w k new) ∨ (∃ w new, u = s.writeS w new) ∨ (∃ w new, u = s.writeCT w new) := by
  cases i with
  | ksw i =>
    by_cases h : i.toNat < 44
    · rw [exec, execKsw_eq h] at hu
      injection hu with hu
      exact .inl ⟨_, _, _, hu.symm⟩
    · simp [exec, execKsw, h] at hu
  | ark r =>
    by_cases h : r.toNat < 11
    · rw [exec, execArk_eq h] at hu
      injection hu with hu
      exact .inr (.inl ⟨_, _, hu.symm⟩)
    · simp [exec, execArk, h] at hu
  | lds | sub | shr | mix =>
    injection hu with hu
    exact .inr (.inl ⟨_, _, hu.symm⟩)
  | stc =>
    injection hu with hu
    exact .inr (.inr ⟨_, _, hu.symm⟩)
  | start => exact absurd rfl h1
  | reset => exact absurd rfl h2

/-- The operation of a position is no host command. -/
theorem PositionCase.ne_command {p q : Position} {i : Instr} (hc : PositionCase p i q) :
    i ≠ .start ∧ i ≠ .reset := by
  cases hc <;> exact ⟨Instr.noConfusion, Instr.noConfusion⟩

/-- An operation leaves the latches, `ERR`, the pc and the inputs. -/
theorem exec_operation_frame {i : Instr} {s u : State} (h1 : i ≠ .start) (h2 : i ≠ .reset)
    (hu : exec i s = .next u) :
    u.KEYR = s.KEYR ∧ u.PTR = s.PTR ∧ u.ERR = s.ERR ∧ u.pc = s.pc ∧ u.inputs = s.inputs := by
  rcases exec_cases h1 h2 hu with ⟨w, k, new, rfl⟩ | ⟨w, new, rfl⟩ | ⟨w, new, rfl⟩ <;> exact ⟨rfl, rfl, rfl, rfl, rfl⟩

/-- A step at a busy position without reset performs its operation (44_sequencer.md R106). -/
theorem step_operation {s : State} {w : BitVec 10} (hr : s.input.RST = false) (h : opAt s.pc = some w) :
    ∃ p i q u, s.pc = p ∧ PositionCase p i q ∧ nextPc p = some q ∧ decodeOpw w = .instr i ∧ exec i s = .next u ∧
      step s = .next (u.setPc q).popInputs := by
  obtain ⟨i, q, hc, hq, hd, hwf⟩ := opAt_cases h
  obtain ⟨u, hu⟩ : ∃ u, exec i s = .next u := by
    cases i with
    | ksw i => exact ⟨_, execKsw_eq (by simpa [Instr.WellFormed] using hwf) s⟩
    | ark i => exact ⟨_, execArk_eq (by simpa [Instr.WellFormed] using hwf) s⟩
    | start => exact absurd rfl hc.ne_command.1
    | reset => exact absurd rfl hc.ne_command.2
    | _ => exact ⟨_, rfl⟩
  refine ⟨_, i, q, u, rfl, hc, hq, hd, hu, ?_⟩
  have hd' : decodeOpw w = .instr i := hd
  simp [step, State.choice, hr, isWaiting_of_opAt h, h, hq, decode, hd', hu]

/-- Everything a step can do when it answers a next state. -/
theorem step_cases {s t : State} (h : step s = .next t) :
    (s.input.RST = true ∧ t = { State.reset with inputs := s.inputs.tail }) ∨
    (s.input.RST = false ∧ s.pc.isWaiting = true ∧ s.input.START = true ∧ t = s.acceptStart.popInputs) ∨
    (s.input.RST = false ∧ s.pc.isWaiting = true ∧ s.input.START = false ∧ t = s.noEvent.popInputs) ∨
    (s.input.RST = false ∧ s.pc.isWaiting = false ∧
      ∃ p i q u, s.pc = p ∧ PositionCase p i q ∧ exec i s = .next u ∧ t = (u.setPc q).popInputs) := by
  unfold step State.choice at h
  cases hr : s.input.RST
  · simp only [hr, Bool.false_eq_true, if_false] at h
    cases hw : s.pc.isWaiting
    · simp only [hw, Bool.false_eq_true, if_false] at h
      cases ho : opAt s.pc with
      | none => rw [ho] at h; cases hn : nextPc s.pc <;> rw [hn] at h <;> simp at h
      | some w =>
        obtain ⟨i, q, hc, hq, hd, -⟩ := opAt_cases ho
        rw [ho, hq] at h
        simp only [hd] at h
        obtain ⟨u, hu, rfl⟩ := onNext_eq_next.mp h
        exact .inr (.inr (.inr ⟨rfl, rfl, _, i, q, u, rfl, hc, hu, rfl⟩))
    · have hp : s.pc.PH.acceptsStart = true := by
        simp only [Position.isWaiting, Bool.or_eq_true, decide_eq_true_eq] at hw
        rcases hw with (hw | hw) | hw <;> rw [hw] <;> rfl
      simp only [hw, if_true] at h
      cases hs : s.input.START
      · simp only [hs, Bool.false_eq_true, if_false] at h
        injection h with h
        exact .inr (.inr (.inl ⟨rfl, rfl, rfl, h.symm⟩))
      · simp only [hs, if_true, exec] at h
        rw [execStart_accepted s hr hp] at h
        injection h with h
        exact .inr (.inl ⟨rfl, rfl, rfl, h.symm⟩)
  · simp only [hr, if_true, exec, execReset] at h
    injection h with h
    exact .inl ⟨rfl, h.symm⟩

end Sys2Proof.Machine
end

