-- ==== Sys2Proof/Laws/Run.lean ====
section
/-! SUPPORT. Runs of several steps, and which port values each of their steps sees. -/

namespace Sys2Proof.Machine

theorem run_zero (s : State) : run 0 s = .next s := rfl

/-- The first of `n + 1` steps. -/
theorem run_succ (n : Nat) (s : State) :
    run (n + 1) s = (match step s with
      | .next t => run n t
      | .fault r => .fault r
      | .refused r => .refused r) := by
  refine (Host.Core.run.eq_def Sys2Proof.core (n + 1) s).trans ?_
  have h : Sys2Proof.core.step s = step s := rfl
  dsimp only
  rw [h]
  cases step s <;> rfl

theorem run_of_step {s t : State} (h : step s = .next t) (n : Nat) : run (n + 1) s = run n t := by
  rw [run_succ, h]

/-- `n + 1` steps that answer a next state are one step and then `n`. -/
theorem run_succ_eq_next {n : Nat} {s t : State} (h : run (n + 1) s = .next t) :
    ∃ u, step s = .next u ∧ run n u = .next t := by
  rw [run_succ] at h
  cases hs : step s with
  | next u => exact ⟨u, rfl, by rw [hs] at h; exact h⟩
  | fault r => cases r
  | refused r => rw [hs] at h; cases h

/-- `m + n` steps are `m` steps and then `n`. -/
theorem run_add {m n : Nat} {s t : State} (h : run m s = .next t) : run (m + n) s = run n t := by
  induction m generalizing s with
  | zero =>
    injection h with h
    subst h
    rw [Nat.zero_add]
  | succ m ih =>
    obtain ⟨u, hu, hr⟩ := run_succ_eq_next h
    rw [Nat.add_right_comm, run_of_step hu, ih hr]

/-- The last of `n + 1` steps. -/
theorem run_snoc {n : Nat} {s t : State} (h : run n s = .next t) : run (n + 1) s = step t := by
  rw [run_add h, run_succ]
  cases step t <;> rfl

/-- What every step keeps holds after a run. -/
theorem run_keeps {P : State → Prop} (hP : ∀ s t, P s → step s = .next t → P t) {n : Nat} {s t : State} (hs : P s)
    (h : run n s = .next t) : P t := by
  induction n generalizing s with
  | zero =>
    injection h with h
    exact h ▸ hs
  | succ n ih =>
    obtain ⟨u, hu, hr⟩ := run_succ_eq_next h
    exact ih (hP s u hs hu) hr

/-- A step uses up the port values of one step (log entry 1). -/
theorem step_inputs {s t : State} (h : step s = .next t) : t.inputs = s.inputs.tail := by
  rcases step_cases h with ⟨-, rfl⟩ | ⟨-, -, -, rfl⟩ | ⟨-, -, -, rfl⟩ | ⟨-, -, p, i, q, u, -, hc, hu, rfl⟩
  · rfl
  · simp only [State.acceptStart]
    split <;> rfl
  · rfl
  · simp [(exec_operation_frame hc.ne_command.1 hc.ne_command.2 hu).2.2.2.2]

theorem run_inputs {n : Nat} {s t : State} (h : run n s = .next t) : t.inputs = s.inputs.drop n := by
  induction n generalizing s with
  | zero =>
    injection h with h
    simp [h]
  | succ n ih =>
    obtain ⟨u, hu, hr⟩ := run_succ_eq_next h
    rw [ih hr, step_inputs hu]
    simp [List.drop_tail]

@[simp] theorem State.inputOf_zero (s : State) : s.inputOf 0 = s.input := by
  simp [State.input, State.inputOf, List.headD_eq_head?_getD, List.getD_eq_getElem?_getD, List.head?_eq_getElem?]

/-- After `n` steps the ports of step `k` are those of step `n + k` counted from the start. -/
theorem run_inputOf {n : Nat} {s t : State} (h : run n s = .next t) (k : Nat) : t.inputOf k = s.inputOf (n + k) := by
  simp [State.inputOf, run_inputs h, List.getD_eq_getElem?_getD]

/-- After `n` steps the ports are those of step `n`. -/
theorem run_input {n : Nat} {s t : State} (h : run n s = .next t) : t.input = s.inputOf n := by
  rw [← State.inputOf_zero, run_inputOf h, Nat.add_zero]

/-- A waiting position has a waiting phase. -/
theorem Position.acceptsStart_of_isWaiting {p : Position} (h : p.isWaiting = true) : p.PH.acceptsStart = true := by
  simp only [Position.isWaiting, Bool.or_eq_true, decide_eq_true_eq] at h
  rcases h with (rfl | rfl) | rfl <;> rfl

/-- A busy position among the 89 has an operation (44_sequencer.md R104). -/
theorem State.exists_opAt_of_isBusyReachable {s : State} (h : s.isBusyReachable = true) : ∃ w, opAt s.pc = some w := by
  simp only [State.isBusyReachable, Position.isReachable, Bool.and_eq_true, Bool.or_eq_true] at h
  rcases h with ⟨hw | ho, hb⟩
  · simp only [Position.isWaiting, Bool.or_eq_true, decide_eq_true_eq] at hw
    rcases hw with (hw | hw) | hw <;> rw [hw] at hb <;> cases hb
  · exact Option.isSome_iff_exists.1 ho

end Sys2Proof.Machine
end

