-- ==== Sys2Proof/Laws/Frame.lean ====
section
/-! SUPPORT. The frame of each write: every field but its destination and the event port is the same. -/

namespace Sys2Proof.Machine

@[simp] theorem sameButS_writeS (s : State) (w : BitVec 10) (new : Block) : s.SameButS (s.writeS w new) :=
  ⟨rfl, rfl, rfl, rfl, rfl, rfl, rfl⟩

@[simp] theorem sameButCT_writeCT (s : State) (w : BitVec 10) (new : Block) : s.SameButCT (s.writeCT w new) :=
  ⟨rfl, rfl, rfl, rfl, rfl, rfl, rfl⟩

@[simp] theorem sameButWord_writeWord (s : State) (w : BitVec 10) (i : Fin 44) (new : Word) :
    s.SameButWord i.val (s.writeWord w i new) := by
  refine ⟨fun k hk hne => ?_, rfl, rfl, rfl, rfl, rfl, rfl, rfl⟩
  rw [State.writeWord_W, Vector.getElem_set_ne _ _ (Ne.symm hne)]

/-- An operation neither reads nor writes the ports: it commutes with a change of them (44_sequencer.md R106). -/
theorem exec_operation_withInput {i : Instr} {s u : State} (j : Inputs) (h1 : i ≠ .start) (h2 : i ≠ .reset)
    (hu : exec i s = .next u) : exec i (s.withInput j) = .next (u.withInput j) := by
  cases i with
  | ksw i =>
    by_cases h : i.toNat < 44
    · rw [exec, execKsw_eq h] at hu ⊢
      injection hu with hu
      subst hu
      rfl
    · simp [exec, execKsw, h] at hu
  | ark r =>
    by_cases h : r.toNat < 11
    · rw [exec, execArk_eq h] at hu ⊢
      injection hu with hu
      subst hu
      rfl
    · simp [exec, execArk, h] at hu
  | lds | sub | shr | mix | stc =>
    injection hu with hu
    subst hu
    rfl
  | start => exact absurd rfl h1
  | reset => exact absurd rfl h2

end Sys2Proof.Machine
end

