-- ==== Sys2Proof/Laws/PerInstr.lean ====
section
/-! SUPPORT. The family EncodeInTable, a statement about every instruction as syntax: its code has the pattern bits and
the argument of its row of spec/opcode_table.json (30_encoding.md R45, R46, R56). -/

namespace Sys2Proof.Laws.EncodeInTable

/-- Mask, match and pin of the instruction's row of spec/opcode_table.json, and its argument. -/
def inRow : Instr → Code → Bool
  | .ksw n, .opw w => w &&& 0x3C0#10 == 0x040#10 && argField w == n
  | .lds, .opw w => w &&& 0x3FF#10 == 0x080#10
  | .ark r, .opw w => w &&& 0x3F0#10 == 0x0C0#10 && argField w == r
  | .sub, .opw w => w &&& 0x3FF#10 == 0x100#10
  | .shr, .opw w => w &&& 0x3FF#10 == 0x140#10
  | .mix, .opw w => w &&& 0x3FF#10 == 0x180#10
  | .stc, .opw w => w &&& 0x3FF#10 == 0x1C0#10
  | .start, .startPin b => b == 1
  | .reset, .rstPin b => b == 1
  | _, _ => false

def Statement (i : Instr) : Prop := i.WellFormed = true → inRow i (encode i) = true

theorem ksw (i : BitVec 6) : Statement (.ksw i) := by
  revert i
  unfold Statement
  decide

theorem lds : Statement .lds := by intro _; decide

theorem ark (r : BitVec 6) : Statement (.ark r) := by
  revert r
  unfold Statement
  decide

theorem sub : Statement .sub := by intro _; decide

theorem shr : Statement .shr := by intro _; decide

theorem mix : Statement .mix := by intro _; decide

theorem stc : Statement .stc := by intro _; decide

theorem start : Statement .start := by intro _; rfl

theorem reset : Statement .reset := by intro _; rfl

end Sys2Proof.Laws.EncodeInTable
end

