-- ==== Sys2Proof/Tests/Slice0.lean ====
section
/-! SUPPORT. The model's own tests: the well-formedness smoke test, decoding of words written out from the spec, at most
two checks of one step per instruction with results from 95_test_vectors.md, and for every statement with hypotheses a
witness that they can be met. -/

namespace Sys2Proof.Tests

open Sys2Proof.Machine

/-- What a test looks at in the next state of an outcome. -/
def after (o : Host.Outcome State Fault Refusal) (check : State → Bool) : Bool :=
  match o with
  | .next t => check t
  | .fault _ => false
  | .refused _ => false

/-- Whether an outcome is a refusal. -/
def isRefused : Host.Outcome State Fault Refusal → Bool
  | .refused _ => true
  | .next _ => false
  | .fault _ => false

/-- The key of 95_test_vectors.md V1. -/
def keyV1 : Block := #v[0x2b, 0x7e, 0x15, 0x16, 0x28, 0xae, 0xd2, 0xa6, 0xab, 0xf7, 0x15, 0x88, 0x09, 0xcf, 0x4f, 0x3c]

/-- The plaintext of 95_test_vectors.md V1. -/
def ptV1 : Block := #v[0x32, 0x43, 0xf6, 0xa8, 0x88, 0x5a, 0x30, 0x8d, 0x31, 0x31, 0x98, 0xa2, 0xe0, 0x37, 0x07, 0x34]

/-- The ciphertext of 95_test_vectors.md V1. -/
def ctV1 : Block := #v[0x39, 0x25, 0x84, 0x1d, 0x02, 0xdc, 0x09, 0xfb, 0xdc, 0x11, 0x85, 0x97, 0x19, 0x6a, 0x0b, 0x32]

/-- The ciphertext of 95_test_vectors.md V2. -/
def ctV2 : Block := #v[0x66, 0xe9, 0x4b, 0xd4, 0xef, 0x8a, 0x2c, 0x3b, 0x88, 0x4c, 0xfa, 0x59, 0xca, 0x34, 0x2b, 0x2e]

/-- `S` after ARK 0 of P1. -/
def ark0V1 : Block := #v[0x19, 0x3d, 0xe3, 0xbe, 0xa0, 0xf4, 0xe2, 0x2b, 0x9a, 0xc6, 0x8d, 0x2a, 0xe9, 0xf8, 0x48, 0x08]

/-- `S` after the first SUB of P1. -/
def sub1V1 : Block := #v[0xd4, 0x27, 0x11, 0xae, 0xe0, 0xbf, 0x98, 0xf1, 0xb8, 0xb4, 0x5d, 0xe5, 0x1e, 0x41, 0x52, 0x30]

/-- `S` after the first SHR of P1. -/
def shr1V1 : Block := #v[0xd4, 0xbf, 0x5d, 0x30, 0xe0, 0xb4, 0x52, 0xae, 0xb8, 0x41, 0x11, 0xf1, 0x1e, 0x27, 0x98, 0xe5]

/-- `S` after the first MIX of P1. -/
def mix1V1 : Block := #v[0x04, 0x66, 0x81, 0xe5, 0xe0, 0xcb, 0x19, 0x9a, 0x48, 0xf8, 0xd3, 0x7a, 0x28, 0x06, 0x26, 0x4c]

/-- A request with the given length, key and plaintext. -/
def request (len : Byte) (key pt : Block) : Inputs :=
  { Inputs.quiet with START := true, KEYLEN := len, KEY := key, PT := pt }

/-- The ports with RST = 1 and START = 1. -/
def resetAndStart : Inputs := { request 16 keyV1 ptV1 with RST := true }

/-- The reset state with inputs lined up. -/
def withInputs (l : List Inputs) : State := { State.reset with inputs := l }

/-- A state at a position, with `S`, `PTR` and `KEYR` given. -/
def placed (p : Position) (b : Block) : State := { State.reset with pc := p, S := b, PTR := b, KEYR := keyV1 }

/-- The schedule of V1 up to `W[4]` (95_test_vectors.md P1). -/
def scheduleV1 : Schedule :=
  ((((zeroSchedule.set 0 #v[0x2b, 0x7e, 0x15, 0x16]).set 1 #v[0x28, 0xae, 0xd2, 0xa6]).set 2 #v[0xab, 0xf7, 0x15, 0x88]).set 3 #v[0x09, 0xcf, 0x4f, 0x3c]).set 4 #v[0xa0, 0xfa, 0xfe, 0x17]

/-! Well-formedness: one ill-formed term for each check (30_encoding.md R46, R48). -/

theorem test_wf_ksw_43 : (Instr.ksw 43).WellFormed = true := by decide
theorem test_wf_ksw_44_refused : (Instr.ksw 44).WellFormed = false := by decide
theorem test_wf_ark_10 : (Instr.ark 10).WellFormed = true := by decide
theorem test_wf_ark_11_refused : (Instr.ark 11).WellFormed = false := by decide

/-! Decoding: words written out from 30_encoding.md R46; the reserved ones from 95_test_vectors.md section 2.8. -/

theorem test_decode_ksw_0 : decodeOpw 0b0001000000 = .instr (.ksw 0) := by decide
theorem test_decode_ksw_43 : decodeOpw 0x06B = .instr (.ksw 43) := by decide
theorem test_decode_ksw_44 : decodeOpw 0x06C = .rejected .kswIndexOutOfRange := by decide
theorem test_decode_ksw_63 : decodeOpw 0x07F = .rejected .kswIndexOutOfRange := by decide
theorem test_decode_lds : decodeOpw 0b0010000000 = .instr .lds := by decide
theorem test_decode_lds_arg : decodeOpw 0x081 = .rejected .argumentNotZero := by decide
theorem test_decode_ark_0 : decodeOpw 0x0C0 = .instr (.ark 0) := by decide
theorem test_decode_ark_10 : decodeOpw 0b0011001010 = .instr (.ark 10) := by decide
theorem test_decode_ark_11 : decodeOpw 0x0CB = .rejected .arkRoundOutOfRange := by decide
theorem test_decode_sub : decodeOpw 0b0100000000 = .instr .sub := by decide
theorem test_decode_shr : decodeOpw 0b0101000000 = .instr .shr := by decide
theorem test_decode_mix : decodeOpw 0b0110000000 = .instr .mix := by decide
theorem test_decode_stc : decodeOpw 0b0111000000 = .instr .stc := by decide
theorem test_decode_kind_0 : decodeOpw 0x000 = .rejected .reservedKind := by decide
theorem test_decode_kind_8 : decodeOpw 0x200 = .rejected .reservedKind := by decide
theorem test_decode_kind_15 : decodeOpw 0x3FF = .rejected .reservedKind := by decide
theorem test_decode_start_pin : decode (.startPin 1) = .instr .start := by decide
theorem test_decode_rst_pin : decode (.rstPin 1) = .instr .reset := by decide
theorem test_table_word_ksw : decodeTableWord 16 0x040 = some (.ksw 0) := by decide
theorem test_table_word_start : decodeTableWord 8 1 = some .start := by decide
theorem test_table_word_reserved : decodeTableWord 16 0x3FF = none := by decide

/-! The combinational functions (95_test_vectors.md sections 2.1 to 2.5). -/

theorem test_xtime_80 : xtime 0x80 = 0x1B := by decide
theorem test_xtime_ff : xtime 0xFF = 0xE5 := by decide
theorem test_gfmul_57_83 : gfmul 0x57 0x83 = 0xC1 := by decide
theorem test_gfmul_01_80 : gfmul 0x01 0x80 = 0x80 := by decide
theorem test_subByte_53 : subByte 0x53 = 0xED := by decide
theorem test_subByte_10 : subByte 0x10 = 0xCA := by decide
theorem test_rotWord : rotWord #v[0x09, 0xcf, 0x4f, 0x3c] = #v[0xcf, 0x4f, 0x3c, 0x09] := by decide
theorem test_subWord : subWord #v[0xcf, 0x4f, 0x3c, 0x09] = #v[0x8a, 0x84, 0xeb, 0x01] := by decide
theorem test_rcon_9 : rcon 9 (by decide) = #v[0x1B, 0, 0, 0] := by decide
theorem test_mixColumn : mixColumn #v[0xdb, 0x13, 0x53, 0x45] = #v[0x8e, 0x4d, 0xa1, 0xbc] := by decide
theorem test_mixColumn_reduction : mixColumn #v[0xFF, 0, 0, 0] = #v[0xE5, 0xFF, 0xFF, 0x1A] := by decide
theorem test_packWord : packWord #v[0x2b, 0x7e, 0x15, 0x16] = 0x2b7e1516 := by decide
theorem test_listing : (Instr.ksw 7).listing = "KSW 7" := by decide

/-! One step of each instruction (95_test_vectors.md sections 2.4 to 2.7 and P1). -/

theorem test_ksw_3 :
    after (exec (.ksw 3) (placed (Position.kexp 3) zeroBlock)) (fun t => t.W[3] == #v[0x09, 0xcf, 0x4f, 0x3c]) = true := by decide
theorem test_ksw_4 :
    after (exec (.ksw 4) { State.reset with KEYR := keyV1, W := scheduleV1 }) (fun t => t.W[4] == #v[0xa0, 0xfa, 0xfe, 0x17]) = true := by
  decide
theorem test_lds :
    after (exec .lds (placed Position.load ptV1))
      (fun t => cell t.S 1 0 == 0x43 && cell t.S 0 1 == 0x88 && t.ev.isSome) = true := by decide
theorem test_ark_0 :
    after (exec (.ark 0) { placed (Position.round 0 .ark) ptV1 with W := scheduleV1 })
      (fun t => t.S == ark0V1) = true := by decide
theorem test_ark_11_refused : isRefused (exec (.ark 11) State.reset) = true := by decide
theorem test_sub : after (exec .sub (placed (Position.round 1 .sub) ark0V1)) (fun t => t.S == sub1V1) = true := by decide
theorem test_shr : after (exec .shr (placed (Position.round 1 .shr) sub1V1)) (fun t => t.S == shr1V1) = true := by decide
theorem test_mix : after (exec .mix (placed (Position.round 1 .mix) shr1V1)) (fun t => t.S == mix1V1) = true := by decide
theorem test_stc :
    after (step (placed Position.store ctV1)) (fun t => t.CT == ctV1 && t.DONE && t.ev.isSome) = true := by decide
theorem test_start_accepted :
    after (step (withInputs [request 16 keyV1 ptV1]))
      (fun t => t.KEYR == keyV1 && t.PTR == ptV1 && t.pc == Position.kexp 0 && t.BUSY) = true := by decide
theorem test_start_wrong_length :
    after (step (withInputs [request 17 keyV1 ptV1]))
      (fun t => t.KEYR == zeroBlock && t.ERR_OUT == 1 && t.ERRF && t.pc == Position.error) = true := by decide
theorem test_reset_wins :
    after (step { placed Position.store keyV1 with inputs := [resetAndStart] })
      (fun t => t == State.reset) = true := by decide
theorem test_start_ignored_while_busy :
    after (step { placed (Position.kexp 7) zeroBlock with inputs := [request 3 zeroBlock zeroBlock] })
      (fun t => t.KEYR == keyV1 && t.pc == Position.kexp 8 && t.ERR_OUT == 0) = true := by decide
theorem test_mix_skipped_in_round_10 : nextPc (Position.round 10 .shr) = some (Position.round 10 .ark) := by decide
theorem test_unreachable_refused : isRefused (step (placed (Position.round 0 .sub) zeroBlock)) = true := by decide
theorem test_presented_word_runs :
    after (step (State.reset.withFetchWord 16 0x0C0)) (fun t => t.ev.isSome && t.pc == Position.round 1 .sub) = true := by
  decide

/-- The source's own known-answer test V1, as a value of the function `Encrypt` (44_sequencer.md R112). -/
theorem test_encrypt_v1 : encrypt keyV1 ptV1 = ctV1 := by decide +kernel

/-- The source's all-zero test V2 (44_sequencer.md R112). -/
theorem test_encrypt_v2 : encrypt zeroBlock zeroBlock = ctV2 := by decide +kernel

/-! Witnesses: for each statement with hypotheses, a state and operands that meet them. -/

/-- A request of length 16 at reset. -/
def starting : State := withInputs [request 16 keyV1 ptV1]

/-- START held at 1 over `n` steps. -/
def held (n : Nat) (len : Byte) : State := withInputs (List.replicate n (request len keyV1 ptV1))

/-- A state of a run with a zero key and plaintext at a position from LOAD to STORE. -/
def inRun (p : Position) : State :=
  { State.reset with W := expand zeroBlock, S := stateAt (expand zeroBlock) zeroBlock p, pc := p }

theorem inRun_invariant (p : Position) (hr : p.isReachable = true) (hp : p.PH = .load ∨ p.PH = .round ∨ p.PH = .store) :
    (inRun p).RunInvariant := by
  refine ⟨⟨hr, ?_⟩, ?_, ?_, fun _ => rfl, rfl, fun _ => rfl, ?_⟩ <;>
    simp only [inRun, State.ErrMatchesPhase, State.reset] <;> rcases hp with hp | hp | hp <;> simp [hp]

theorem witness_DecodeOfEncodeIsIdentity : (Instr.ark 10).WellFormed = true := by decide
theorem witness_DecodedCodeIsTheEncoding : decode (.opw 0x06B) = .instr (.ksw 43) := by decide
theorem witness_ReservedWordsHaveNoMeaning :
    (Instr.ksw 44).WellFormed = false ∧ (Instr.ark 11).WellFormed = false ∧
    kindField 0x03F = 0 ∧ 8 ≤ (kindField 0x200).toNat ∧ (kindField 0x06C = 1 ∧ 44 ≤ (argField 0x06C).toNat) ∧
    (kindField 0x0CB = 3 ∧ 11 ≤ (argField 0x0CB).toNat) ∧ (kindField 0x081 = 2 ∧ argField 0x081 ≠ 0) := by decide
theorem witness_OperationWordsOfTheTable : (43#6).toNat < 44 ∧ (10#6).toNat < 11 := by decide
theorem witness_StepRunsTheDecodedOperation :
    let s := placed (Position.kexp 43) zeroBlock
    s.input.RST = false ∧ opAt s.pc = some 0x06B ∧ nextPc s.pc = some Position.load ∧
      decode (.opw 0x06B) = .instr (.ksw 43) ∧ (Instr.ksw 43).WellFormed = true := by decide
theorem witness_StepRunsTheHostCommand :
    (withInputs [resetAndStart]).input.RST = true ∧ starting.input.RST = false ∧ starting.pc.isWaiting = true ∧
      starting.input.START = true := by decide
theorem witness_PresentedInstructionRunsNext : Instr.start.WellFormed = true ∧ Instr.mix.WellFormed = true := by decide
theorem witness_StutterChangesNothing :
    State.reset.pc.isWaiting = true ∧
    (∀ k < 3, (State.reset.inputOf k).RST = false ∧ (State.reset.inputOf k).START = false) ∧
    (placed Position.load zeroBlock).isBusyReachable = true ∧ (placed Position.load zeroBlock).input.RST = false := by
  decide
theorem witness_StepIsTotalOnReachablePositions :
    opAt Position.store = some 0x1C0 ∧ State.reset.pc.isReachable = true ∧
    (placed (Position.kexp 44) zeroBlock).pc.isReachable = false ∧
    (placed (Position.round 10 .mix) zeroBlock).pc.isReachable = false ∧
    (placed (Position.round 11 .ark) zeroBlock).pc.isReachable = false ∧
    (placed (Position.kexp 44) zeroBlock).input.RST = false := by decide
theorem witness_ResetOverridesEverything :
    ∀ k < 2, ((withInputs [resetAndStart, resetAndStart]).inputOf k).RST = true := by decide
theorem witness_ResetOverridesEverything_busy :
    let s := (placed Position.load keyV1).withInput resetAndStart
    s.isBusyReachable = true ∧ ∃ t, step s = .next t ∧ nextPc s.pc ≠ some t.pc := ⟨by decide, _, rfl, by decide⟩
theorem witness_PortsIgnoredWhileBusy :
    (placed Position.load zeroBlock).isBusyReachable = true ∧ (request 16 keyV1 ptV1).RST = false ∧
      Inputs.quiet.RST = false := by decide
theorem witness_KeyPortsReadOnlyByStart :
    (withInputs [resetAndStart]).input.RST = true ∧ State.reset.input.START = false ∧
      (placed Position.load zeroBlock).pc.isWaiting = false := by decide
theorem witness_MultiplierPortIsCombinational :
    State.reset.input.GFA = (placed Position.load keyV1).input.GFA ∧
      State.reset.input.GFB = (placed Position.load keyV1).input.GFB := by decide
theorem witness_ObserverCannotInfluence : 0 < 1 := by decide
theorem witness_PseudoOperationsExpand : 43 < (44#6).toNat ∧ 1 ≤ 9 ∧ 10 < 11 := by decide
theorem witness_RunVisitsTheTable :
    Position.idle.PH = .idle ∧ Position.done.PH = .done ∧ Position.error.PH = .error ∧
    starting.Starting ∧ ∀ k ≤ 86, (starting.inputOf k).RST = false := by decide
theorem witness_RunTerminatesAfterExactly86Steps :
    starting.Starting ∧ ∀ k ≤ 86, (starting.inputOf k).RST = false := by decide
theorem witness_RunComputesTheCiphertext :
    (starting.Starting ∧ (∀ k ≤ 88, (starting.inputOf k).RST = false) ∧
      ∀ k ≤ 88, 86 < k → (starting.inputOf k).START = false) ∧
    (held 1 15).pc.isWaiting = true ∧ (held 1 15).input.RST = false ∧ (held 1 15).input.START = true ∧
      (held 1 15).input.KEYLEN ≠ 16 := by decide
theorem witness_NothingPersistsAcrossRuns :
    let s := starting
    let t := { starting with pc := Position.done, CT := keyV1, S := keyV1 }
    s.pc.isWaiting = true ∧ t.pc.isWaiting = true ∧ s.inputs = t.inputs ∧ s.input.RST = false ∧
      s.input.START = true := by decide
theorem witness_HeldStartRunsBackToBack :
    ((held 88 16).Starting ∧ ∀ k ≤ 87, ((held 88 16).inputOf k).RST = false ∧ ((held 88 16).inputOf k).START = true) ∧
    ((held 88 16).inputOf 87).KEYLEN = 16 ∧
    ((withInputs (List.replicate 87 (request 16 keyV1 ptV1) ++ [request 17 keyV1 ptV1])).inputOf 87).KEYLEN ≠ 16 ∧
    (held 2 17).pc.isWaiting = true ∧
    ∀ k < 2, ((held 2 17).inputOf k).RST = false ∧ ((held 2 17).inputOf k).START = true ∧
      ((held 2 17).inputOf k).KEYLEN ≠ 16 := by decide
theorem witness_BusyStepEmitsItsRecord :
    opAt (placed Position.load zeroBlock).pc = some 0x080 ∧ (placed Position.load zeroBlock).input.RST = false ∧
    ∃ t, step State.reset = .next t ∧ State.reset.pc.isWaiting = true := ⟨by decide, by decide, _, rfl, by decide⟩
theorem witness_EventRecordsFitTogether :
    (inRun Position.load).RunInvariant ∧ (inRun Position.store).RunInvariant ∧
    (inRun Position.load).input.RST = false ∧ (inRun Position.load).isBusyReachable = true ∧
    ∃ t u, step (inRun Position.load) = .next t ∧ t.pc.PH = .round ∧ t.input.RST = false ∧ step t = .next u ∧
      t.ev.isSome = true ∧ u.ev.isSome = true :=
  ⟨inRun_invariant _ (by decide) (.inl rfl), inRun_invariant _ (by decide) (.inr (.inr rfl)), rfl, rfl,
    _, _, rfl, rfl, rfl, rfl, rfl, rfl⟩
theorem witness_EventRecordsFitTogether_kexp :
    let s := (starting.clearRun.beginRun keyV1 ptV1).popInputs
    s.RunInvariant ∧ s.input.RST = false ∧ s.pc.PH = .kexp := by
  refine ⟨⟨⟨rfl, by decide⟩, ?_, ?_, ?_, rfl, fun _ => rfl, ?_⟩, rfl, rfl⟩
  · intro h; exact absurd h (by decide)
  · intro _ i; simp [Position.kexp]
  · intro h; exact absurd h (by decide)
  · intro h; exact absurd h (by decide)
theorem witness_RunEmitsTheEncryptTrace :
    starting.Starting ∧ 85 < 86 ∧ ∀ k ≤ 86, (starting.inputOf k).RST = false := by decide
theorem witness_KswComputesTheScheduleWord : 3 < 4 ∧ (4 ≤ 4 ∧ 4 % 4 = 0) ∧ (4 ≤ 43 ∧ 43 % 4 ≠ 0 ∧ 43 < 44) := by decide
theorem witness_StcStoresTheCiphertext :
    opAt (placed Position.store keyV1).pc = some 0x1C0 ∧ (placed Position.store keyV1).input.RST = false ∧
    ∃ t u, exec .lds State.reset = .next t ∧ exec .stc t = .next u := ⟨by decide, by decide, _, _, rfl, rfl⟩
theorem witness_ShrRotatesEachRow :
    ∀ row col : Fin 4, cell (Vector.ofFn fun j : Fin 16 => BitVec.ofNat 8 (j.val % 4)) row col =
      cell (Vector.ofFn fun j : Fin 16 => BitVec.ofNat 8 (j.val % 4)) row 0 := by decide
theorem witness_MixMultipliesEachColumn :
    opAt (Position.round 1 .mix) = some 0x180 ∧ opAt (Position.round 9 .mix) = some 0x180 := by decide
theorem witness_ArkXorsTheRoundKey :
    10 < 11 ∧ ∃ t u, exec (.ark 10) State.reset = .next t ∧ exec (.ark 10) t = .next u := ⟨by decide, _, _, rfl, rfl⟩
theorem witness_StartBeginsARun :
    (starting.input.RST = false ∧ starting.pc.PH.acceptsStart = true ∧ starting.input.KEYLEN = 16) ∧
    ((held 1 0).input.KEYLEN ≠ 16 ∧ (held 1 255).input.KEYLEN ≠ 16 ∧ (held 1 15).pc.PH.acceptsStart = true) ∧
    (withInputs [resetAndStart]).input.RST = true ∧ (placed Position.load zeroBlock).pc.PH.isBusy = true ∧
    starting.pc.isWaiting = true ∧ starting.input.START = true := by decide
theorem witness_DataOperationsCannotFail :
    ((Instr.ksw 43).WellFormed = true ∧ Instr.ksw 43 ≠ .start ∧ Instr.ksw 43 ≠ .reset) ∧
    (placed Position.store zeroBlock).isBusyReachable = true ∧ (placed Position.store zeroBlock).input.RST = false := by
  decide
theorem witness_InvalidKeyLengthIsTaken :
    (held 1 17).pc.isWaiting = true ∧ (held 1 17).input.RST = false ∧ (held 1 17).input.START = true ∧
    (held 1 17).input.KEYLEN ≠ 16 ∧
    ∃ t, step (held 1 17) = .next t ∧ t.ERR = .invalidKeyLength ∧ (held 1 17).ERR ≠ .invalidKeyLength :=
  ⟨by decide, by decide, by decide, by decide, _, rfl, rfl, by decide⟩
theorem witness_ErrorIsLeftOnlyByStartOrReset :
    ({ starting with pc := Position.error } : State).pc = Position.error ∧ starting.input.START = true ∧
    starting.input.KEYLEN = 16 ∧ (held 1 17).input.KEYLEN ≠ 16 ∧ (withInputs [resetAndStart]).input.RST = true ∧
    State.reset.input.START = false := by decide
theorem witness_InstructionsWriteOnlyTheirDestination :
    writesByte (.ksw 43) .W 171 = false ∧ writesByte (.ksw 43) .W 172 = true ∧ writesByte .stc .S 0 = false ∧
    ∃ t, exec .stc State.reset = .next t := ⟨by decide, by decide, by decide, _, rfl⟩
theorem witness_ScheduleIsImmutableOnceBuilt :
    (∃ t, (placed Position.load zeroBlock).pc.PH = .load ∧ step (placed Position.load zeroBlock) = .next t) ∧
    (placed Position.load zeroBlock).input.RST = false ∧ (placed Position.load zeroBlock).pc.isWaiting = false ∧
    (∃ t, step starting = .next t) ∧ starting.pc.isWaiting = true ∧ starting.input.RST = false ∧
    starting.input.START = true :=
  ⟨⟨_, rfl, rfl⟩, by decide, by decide, ⟨_, rfl⟩, by decide, by decide, by decide⟩
theorem witness_EveryStepKeepsThePositionCanonical :
    State.reset.Canonical ∧ ∃ t, step State.reset = .next t := ⟨by decide, _, rfl⟩
theorem witness_EveryStepKeepsCtZeroUnlessDone :
    (placed Position.load keyV1).CtZeroUnlessDone ∧ ∃ t, step (placed Position.load keyV1) = .next t :=
  ⟨by decide, _, rfl⟩
theorem witness_EveryStepKeepsTheRunInvariant :
    (inRun Position.load).RunInvariant ∧ ∃ t, step (inRun Position.load) = .next t :=
  ⟨inRun_invariant _ (by decide) (.inl rfl), _, rfl⟩
theorem witness_GfmulIsTheXorOfShiftedOperands : [7, 6, 5, 4, 3, 2, 1, 0].Perm [0, 1, 2, 3, 4, 5, 6, 7] := by decide
theorem witness_RoundTransformLaws : (0 < 1 ∧ 1 < 4) ∧ 0 < 3 ∧ 3 < 4 := by decide
theorem witness_StatusOutputsFollowThePhase :
    (placed Position.done zeroBlock).PC_OUT = (5, 43, 10, 3) ∧ (placed Position.error zeroBlock).PC_OUT = (6, 0, 0, 0) ∧
    (placed (Position.round 9 .mix) zeroBlock).PC_OUT = (3, 43, 9, 2) := by decide
theorem witness_RotWordIsCyclic : 0 < 3 ∧ 3 < 4 := by decide
theorem witness_RconIsPowersOfX : (1 ≤ 1 ∧ 1 ≤ 10) ∧ (1 ≤ 10 ∧ 10 ≤ 10) := by decide
theorem witness_SboxMeetsItsConstruction : gfmul 0x53 0xCA = 1 := by decide

end Sys2Proof.Tests
end

/-! The reset values (10_state.md R25) and the output ports (10_state.md R19, R21). The codes of `PH`, `OPS` and `ERR`
are injective, so a port that shows a code shows which constructor stands behind it. -/

namespace Sys2Proof.Machine

theorem Phase.code_injective : Function.Injective Phase.code := by
  intro p q
  cases p <;> cases q <;> simp [Phase.code]

theorem SubStep.code_injective : Function.Injective SubStep.code := by
  intro p q
  cases p <;> cases q <;> simp [SubStep.code]

theorem ErrorCode.code_injective : Function.Injective ErrorCode.code := by
  intro p q
  cases p <;> cases q <;> simp [ErrorCode.code]

theorem Phase.code_ne_seven (p : Phase) : p.code ≠ 7 := by
  cases p <;> decide

theorem Phase.isBusy_iff (p : Phase) :
    p.isBusy = true ↔ p = .kexp ∨ p = .load ∨ p = .round ∨ p = .store := by
  cases p <;> simp [Phase.isBusy]

theorem Phase.eq_idle_iff (p : Phase) : (p.isBusy = false ∧ p ≠ .done ∧ p ≠ .error) ↔ p = .idle := by
  cases p <;> simp [Phase.isBusy]

theorem State.BUSY_iff (s : State) :
    s.BUSY = true ↔ s.pc.PH = .kexp ∨ s.pc.PH = .load ∨ s.pc.PH = .round ∨ s.pc.PH = .store :=
  s.pc.PH.isBusy_iff

theorem State.DONE_iff (s : State) : s.DONE = true ↔ s.pc.PH = .done := decide_eq_true_iff

theorem State.ERRF_iff (s : State) : s.ERRF = true ↔ s.pc.PH = .error := decide_eq_true_iff

theorem State.not_BUSY_and_DONE (s : State) : ¬(s.BUSY = true ∧ s.DONE = true) := by
  rintro ⟨hb, hd⟩
  simp [s.BUSY_iff, s.DONE_iff.mp hd] at hb

theorem State.not_BUSY_and_ERRF (s : State) : ¬(s.BUSY = true ∧ s.ERRF = true) := by
  rintro ⟨hb, he⟩
  simp [s.BUSY_iff, s.ERRF_iff.mp he] at hb

theorem State.not_DONE_and_ERRF (s : State) : ¬(s.DONE = true ∧ s.ERRF = true) := by
  rintro ⟨hd, he⟩
  simp [s.DONE_iff, s.ERRF_iff.mp he] at hd

theorem State.no_status_iff (s : State) :
    (s.BUSY = false ∧ s.DONE = false ∧ s.ERRF = false) ↔ s.pc.PH = .idle := by
  simpa [State.BUSY, State.DONE, State.ERRF] using s.pc.PH.eq_idle_iff

/-- Settles O35: `exec` of RESET answers the reset state with the lined-up inputs kept, whose registers are zero. -/
theorem resetLeavesTheResetValues : Obligations.ResetLeavesTheResetValues := by
  intro s
  refine ⟨_, exec_reset s, cell_zeroBlock, ?_, ?_, ?_, ?_, rfl, rfl, rfl, rfl, rfl, rfl, rfl⟩
  · intro i j
    simp [State.reset]
  all_goals exact fun j => zeroBlock_getElem j j.isLt

/-- Settles O45: the status outputs by the phase, then each code by injectivity; `CT_OUT`, `DBG_W` and `DBG_S` are
views. -/
theorem statusOutputsFollowThePhase : Obligations.StatusOutputsFollowThePhase := by
  refine ⟨fun s => ?status, fun s => ?position, fun s => ?views⟩
  case status =>
    exact ⟨s.BUSY_iff, s.DONE_iff, s.ERRF_iff, s.not_BUSY_and_DONE, s.not_BUSY_and_ERRF, s.not_DONE_and_ERRF,
      s.no_status_iff⟩
  case position =>
    have ph (p : Phase) : s.PC_OUT.1 = p.code ↔ s.pc.PH = p := Phase.code_injective.eq_iff
    have ops (o : SubStep) : s.PC_OUT.2.2.2 = o.code ↔ s.pc.OPS = o := SubStep.code_injective.eq_iff
    exact ⟨ph .idle, ph .kexp, ph .load, ph .round, ph .store, ph .done, ph .error, s.pc.PH.code_ne_seven, rfl, rfl,
      ops .sub, ops .shr, ops .mix, ops .ark⟩
  case views =>
    have err (e : ErrorCode) : s.ERR_OUT = e.code ↔ s.ERR = e := ErrorCode.code_injective.eq_iff
    exact ⟨err .none, err .invalidKeyLength, rfl, rfl, fun _ _ => rfl⟩

end Sys2Proof.Machine

/-! Wide buses (20_memory.md R33). `packBlock` and `packWord` are one fold that shifts the next byte in at the low end,
so what a packed vector holds is proved once, for a list of bytes and any width that has room for it. -/

namespace Sys2Proof.Machine

/-- One step of packing: `v` moves up by eight bits and `x` takes bits 7:0. -/
def shiftInByte {w : Nat} (v : BitVec w) (x : Byte) : BitVec w := (v <<< 8) ||| x.setWidth w

theorem packBlock_eq_foldl (b : Block) : packBlock b = b.toList.foldl shiftInByte 0 := rfl

theorem packWord_eq_foldl (a : Word) : packWord a = a.toList.foldl shiftInByte 0 := rfl

theorem shiftInByte_extract_zero {w : Nat} (v : BitVec w) (x : Byte) (hw : 8 ≤ w) :
    (shiftInByte v x).extractLsb' 0 8 = x := by
  ext i hi
  have hiw : i < w := by omega
  simp [shiftInByte, hi, hiw]

theorem shiftInByte_extract_add_eight {w : Nat} (v : BitVec w) (x : Byte) (n : Nat) (hw : n + 16 ≤ w) :
    (shiftInByte v x).extractLsb' (n + 8) 8 = v.extractLsb' n 8 := by
  ext i hi
  have hx : x.getLsbD (n + 8 + i) = false := x.getLsbD_of_ge _ (by omega)
  have hiw : n + 8 + i < w := by omega
  have hsub : n + 8 + i - 8 = n + i := by omega
  have hin : n + i < w := by omega
  have hge : ¬n + 8 + i < 8 := by omega
  simp [shiftInByte, hx, hiw, hsub, hge, hin]

/-- The bytes of a packed list, from the low end of the vector, are the list read backwards. -/
theorem foldl_shiftInByte_extract {w : Nat} (v : BitVec w) (l : List Byte) (hw : 8 * l.length ≤ w) (k : Nat)
    (hk : k < l.reverse.length) : (l.foldl shiftInByte v).extractLsb' (8 * k) 8 = l.reverse[k] := by
  induction l using List.reverseRecOn generalizing k with
  | nil => simp at hk
  | append_singleton l x ih =>
    simp only [List.length_append, List.length_reverse, List.length_singleton] at hw hk
    cases k with
    | zero => simpa using shiftInByte_extract_zero (l.foldl shiftInByte v) x (by omega)
    | succ k =>
      have older := shiftInByte_extract_add_eight (l.foldl shiftInByte v) x (8 * k) (by omega)
      simp only [List.foldl_concat, List.reverse_concat, List.getElem_cons_succ, Nat.mul_succ, older]
      exact ih (by omega) k (by simpa using hk)

/-- A packed vector of `n` bytes holds byte `j` at offset `8 * (n - 1 - j)`: byte 0 stands highest. -/
theorem foldl_toList_shiftInByte_extract {w n : Nat} (a : Vector Byte n) (hw : 8 * n ≤ w) (j : Fin n) :
    (a.toList.foldl shiftInByte (0 : BitVec w)).extractLsb' (8 * (n - 1 - j.val)) 8 = a[j.val] := by
  have hj : n - 1 - (n - 1 - j.val) = j.val := by omega
  rw [foldl_shiftInByte_extract 0 a.toList (by simpa using hw) (n - 1 - j.val) (by simp; omega)]
  simp [hj]

/-- Settles O60: both packings are the fold of `shiftInByte`, at offsets `8 * (15 - j)` and `8 * (3 - j)`. -/
theorem wideBusPacking : Obligations.WideBusPacking := by
  refine ⟨fun b j => ?block, fun a j => ?word⟩
  case block =>
    have offset : 120 - 8 * j.val = 8 * (16 - 1 - j.val) := by omega
    rw [offset, packBlock_eq_foldl, foldl_toList_shiftInByte_extract b (by decide) j]
  case word =>
    have offset : 24 - 8 * j.val = 8 * (4 - 1 - j.val) := by omega
    rw [offset, packWord_eq_foldl, foldl_toList_shiftInByte_extract a (by decide) j]

end Sys2Proof.Machine

/-! The operation words (30_encoding.md R45 to R48). A word is its two fields, so a decoder fact is a fact about a kind
and an argument: the operations of a kind, listed by argument, are `operationsOfKind`, and decoding is reading that
list. The numbers, the sixty legal words in order and the reserved words all follow from it. -/

namespace Sys2Proof

@[simp] theorem kindField_opwOf (kind : BitVec 4) (arg : BitVec 6) : kindField (opwOf kind arg) = kind :=
  BitVec.extractLsb'_append_eq_left

@[simp] theorem argField_opwOf (kind : BitVec 4) (arg : BitVec 6) : argField (opwOf kind arg) = arg :=
  BitVec.extractLsb'_append_eq_right

@[simp] theorem opwOf_kindField_argField (w : BitVec 10) : opwOf (kindField w) (argField w) = w :=
  BitVec.extractLsb'_append_extractLsb' (w := 4) (len := 6)

theorem toNat_opwOf (kind : BitVec 4) (arg : BitVec 6) : (opwOf kind arg).toNat = 64 * kind.toNat + arg.toNat := by
  rw [opwOf, BitVec.toNat_append, ← Nat.shiftLeft_add_eq_or_of_lt arg.isLt, Nat.shiftLeft_eq, Nat.mul_comm]

/-- The argument is added to the kind's first word (the numbers of 30_encoding.md R46). -/
theorem opwOf_eq_add (kind : BitVec 4) (arg : BitVec 6) : opwOf kind arg = opwOf kind 0 + arg.setWidth 10 := by
  apply BitVec.eq_of_toNat_eq
  simp [toNat_opwOf]
  omega

/-- The words in rising order are the kinds in rising order, each with its arguments in rising order. -/
theorem ofNat_eq_opwOf {k a : Nat} (hk : k < 16) (ha : a < 64) :
    BitVec.ofNat 10 (64 * k + a) = opwOf (BitVec.ofNat 4 k) (BitVec.ofNat 6 a) := by
  apply BitVec.eq_of_toNat_eq
  simp [toNat_opwOf, Nat.mod_eq_of_lt hk, Nat.mod_eq_of_lt ha]
  omega

/-- The kind map of 30_encoding.md R54. -/
theorem kind_cases (kind : BitVec 4) :
    kind = 1 ∨ kind = 2 ∨ kind = 3 ∨ kind = 4 ∨ kind = 5 ∨ kind = 6 ∨ kind = 7 ∨ (kind = 0 ∨ 8 ≤ kind.toNat) := by
  revert kind
  decide

/-- The instruction of a decoder's answer, if it is one. -/
def Decoded.instr? : Decoded → Option Instr
  | .instr i => some i
  | .rejected _ => none

@[simp] theorem Decoded.instr?_instr (i : Instr) : (Decoded.instr i).instr? = some i := rfl

@[simp] theorem Decoded.instr?_rejected (e : DecodeError) : (Decoded.rejected e).instr? = none := rfl

theorem Decoded.instr?_eq_some_iff {d : Decoded} {i : Instr} : d.instr? = some i ↔ d = .instr i := by
  cases d <;> simp

theorem Decoded.instr?_eq_none_iff {d : Decoded} : d.instr? = none ↔ ∃ e, d = .rejected e := by
  cases d <;> simp

/-- The operations with the arguments below `n`, by rising argument. -/
def operationsBelow (n : Nat) (f : BitVec 6 → Instr) : List Instr := (List.range n).map fun a => f (BitVec.ofNat 6 a)

theorem getElem?_operationsBelow (n : Nat) (f : BitVec 6 → Instr) (arg : BitVec 6) :
    (operationsBelow n f)[arg.toNat]? = if arg.toNat < n then some (f arg) else none := by
  unfold operationsBelow
  split_ifs with h <;> simp [h]

theorem getElem?_operationsBelow_eq_some {n : Nat} {f : BitVec 6 → Instr} {arg : BitVec 6} {i : Instr}
    (h : (operationsBelow n f)[arg.toNat]? = some i) : arg.toNat < n ∧ f arg = i := by
  simpa [getElem?_operationsBelow] using h

theorem toNat_lt_one_iff (arg : BitVec 6) : arg.toNat < 1 ↔ arg = 0 := by
  rw [Nat.lt_one_iff, BitVec.toNat_eq]
  rfl

/-- The operations of a kind, by rising argument; where there is no argument the field is 0 (30_encoding.md R46). -/
def operationsOfKind (kind : BitVec 4) : List Instr :=
  if kind = 1 then operationsBelow 44 .ksw
  else if kind = 2 then operationsBelow 1 fun _ => .lds
  else if kind = 3 then operationsBelow 11 .ark
  else if kind = 4 then operationsBelow 1 fun _ => .sub
  else if kind = 5 then operationsBelow 1 fun _ => .shr
  else if kind = 6 then operationsBelow 1 fun _ => .mix
  else if kind = 7 then operationsBelow 1 fun _ => .stc
  else []

theorem operationsOfKind_reserved {kind : BitVec 4} (h : kind = 0 ∨ 8 ≤ kind.toNat) : operationsOfKind kind = [] := by
  revert kind
  decide

theorem length_operationsOfKind_le (kind : BitVec 4) : (operationsOfKind kind).length ≤ 64 := by
  revert kind
  decide

/-- Decoding reads the list of the word's kind at the word's argument (30_encoding.md R47): taken under the kind map,
both sides have the same branches. -/
theorem instr?_decodeOpw (w : BitVec 10) :
    (decodeOpw w).instr? = (operationsOfKind (kindField w))[(argField w).toNat]? := by
  have read_under := apply_ite (fun l : List Instr => l[(argField w).toNat]?)
  simp only [decodeOpw, decodeNoArg, operationsOfKind, apply_ite Decoded.instr?, read_under, getElem?_operationsBelow,
    toNat_lt_one_iff, Decoded.instr?_instr, Decoded.instr?_rejected, List.getElem?_nil]

/-- An entry of a kind's list is well formed, and its word has that kind and the argument it is listed at. -/
theorem encode_of_getElem?_operationsOfKind {kind : BitVec 4} {arg : BitVec 6} {i : Instr}
    (h : (operationsOfKind kind)[arg.toNat]? = some i) : i.WellFormed = true ∧ encode i = .opw (opwOf kind arg) := by
  have noArg (legal : arg.toNat < 1) : Code.opw (opwOf kind 0) = .opw (opwOf kind arg) := by
    rw [(toNat_lt_one_iff arg).mp legal]
  unfold operationsOfKind at h
  split_ifs at h with ksw lds ark sub shr mix stc
  case neg => cases h
  all_goals
    obtain ⟨legal, rfl⟩ := getElem?_operationsBelow_eq_some h
    subst kind
  · exact ⟨decide_eq_true legal, rfl⟩
  · exact ⟨rfl, noArg legal⟩
  · exact ⟨decide_eq_true legal, rfl⟩
  all_goals exact ⟨rfl, noArg legal⟩

theorem decodeOpw_of_encode {i : Instr} {w : BitVec 10} (wf : i.WellFormed = true) (h : encode i = .opw w) :
    decodeOpw w = .instr i := by
  cases i with
  | start => cases h
  | reset => cases h
  | ksw | ark =>
    cases h
    simpa [decodeOpw, Instr.WellFormed] using wf
  | lds | sub | shr | mix | stc =>
    cases h
    rfl

/-- `Decode` answers exactly the well-formed operations, each from its own word (30_encoding.md R47). -/
theorem decodeOpw_eq_instr_iff {w : BitVec 10} {i : Instr} :
    decodeOpw w = .instr i ↔ i.WellFormed = true ∧ encode i = .opw w := by
  refine ⟨fun h => ?_, fun ⟨wf, h⟩ => decodeOpw_of_encode wf h⟩
  rw [← Decoded.instr?_eq_some_iff, instr?_decodeOpw] at h
  simpa using encode_of_getElem?_operationsOfKind h

theorem decodeOpw_rejected_iff {w : BitVec 10} :
    (∃ e, decodeOpw w = .rejected e) ↔ (operationsOfKind (kindField w)).length ≤ (argField w).toNat := by
  rw [← Decoded.instr?_eq_none_iff, instr?_decodeOpw, List.getElem?_eq_none_iff]

/-- The arguments past the end of a kind's list (30_encoding.md R48). -/
theorem length_operationsOfKind_le_iff (kind : BitVec 4) (arg : BitVec 6) :
    (operationsOfKind kind).length ≤ arg.toNat ↔
      (kind = 0 ∨ 8 ≤ kind.toNat ∨ (kind = 1 ∧ 44 ≤ arg.toNat) ∨ (kind = 3 ∧ 11 ≤ arg.toNat) ∨
        ((kind = 2 ∨ kind = 4 ∨ kind = 5 ∨ kind = 6 ∨ kind = 7) ∧ arg ≠ 0)) := by
  have positive : 1 ≤ arg.toNat ↔ arg ≠ 0 := by rw [← Nat.not_lt, toNat_lt_one_iff]
  rcases kind_cases kind with rfl | rfl | rfl | rfl | rfl | rfl | rfl | reserved
  case inr.inr.inr.inr.inr.inr.inr =>
    simp only [operationsOfKind_reserved reserved, List.length_nil, Nat.zero_le, true_iff]
    exact reserved.imp_right .inl
  case inl | inr.inr.inl => simp [operationsOfKind, operationsBelow]
  all_goals simpa [operationsOfKind, operationsBelow] using positive

end Sys2Proof

/-! The 1024 words in rising order: sixteen rows of sixty-four, one for each kind (30_encoding.md R47). -/

namespace Sys2Proof

theorem range_mul (m n : Nat) :
    List.range (m * n) = (List.range m).flatMap fun k => (List.range n).map fun a => n * k + a := by
  induction m with
  | zero => simp
  | succ m ih =>
    rw [Nat.succ_mul, List.range_add, List.range_succ, List.flatMap_append, ih]
    simp [Nat.mul_comm]

/-- Reading a list at every index, past its end too, gives the list. -/
theorem filterMap_getElem?_range {α : Type*} {l : List α} {n : Nat} (h : l.length ≤ n) :
    (List.range n).filterMap (fun k => l[k]?) = l := by
  induction l generalizing n with
  | nil => simp
  | cons x xs ih =>
    obtain ⟨n, rfl⟩ := Nat.exists_eq_add_of_le' (Nat.lt_of_lt_of_le (Nat.succ_pos _) h)
    have rest : (List.range n).filterMap (fun k => xs[k]?) = xs := ih (by simpa using h)
    simpa [List.range_succ_eq_map, List.filterMap_map] using rest

/-- The row of a kind decodes to the operations of the kind. -/
theorem filterMap_decodeOpw_row {k : Nat} (hk : k < 16) :
    (List.range 64).filterMap (fun a => (decodeOpw (BitVec.ofNat 10 (64 * k + a))).instr?) =
      operationsOfKind (BitVec.ofNat 4 k) := by
  have word : ∀ a ∈ List.range 64,
      (decodeOpw (BitVec.ofNat 10 (64 * k + a))).instr? = (operationsOfKind (BitVec.ofNat 4 k))[a]? := by
    intro a ha
    rw [List.mem_range] at ha
    rw [ofNat_eq_opwOf hk ha, instr?_decodeOpw, kindField_opwOf, argField_opwOf, BitVec.toNat_ofNat,
      Nat.mod_eq_of_lt ha]
  exact (List.filterMap_congr word).trans (filterMap_getElem?_range (length_operationsOfKind_le _))

/-- The words that decode, in rising order, are the operations of the sixteen kinds. -/
theorem filterMap_decodeOpw :
    (List.range 1024).filterMap (fun n => (decodeOpw (BitVec.ofNat 10 n)).instr?) =
      (List.range 16).flatMap fun k => operationsOfKind (BitVec.ofNat 4 k) := by
  rw [range_mul 16 64, List.filterMap_flatMap]
  refine List.flatMap_congr fun k hk => ?_
  rw [List.filterMap_map]
  exact filterMap_decodeOpw_row (List.mem_range.mp hk)

/-- The sixty operations in the order of their words. -/
theorem flatMap_operationsOfKind :
    ((List.range 16).flatMap fun k => operationsOfKind (BitVec.ofNat 4 k)) =
      (List.range 44).map (fun i => Instr.ksw (BitVec.ofNat 6 i)) ++ [Instr.lds] ++
        (List.range 11).map (fun r => Instr.ark (BitVec.ofNat 6 r)) ++ [Instr.sub, .shr, .mix, .stc] := rfl

theorem countP_legal :
    (List.range 1024).countP (fun n => (decodeOpw (BitVec.ofNat 10 n)).instr?.isSome) = 60 := by
  rw [← List.length_filterMap_eq_countP, filterMap_decodeOpw, flatMap_operationsOfKind]
  simp

theorem countP_rejected :
    (List.range 1024).countP (fun n => (decodeOpw (BitVec.ofNat 10 n)).instr?.isNone) = 964 := by
  have total := List.length_eq_countP_add_countP (fun n => (decodeOpw (BitVec.ofNat 10 n)).instr?.isSome)
    (l := List.range 1024)
  rw [countP_legal, List.length_range] at total
  simp only [Bool.not_eq_true, Option.isSome_eq_false_iff, Bool.decide_eq_true] at total
  omega

/-- Settles O3: the sixty operations are the lists of the sixteen kinds, and what is left of 1024 words is rejected. -/
theorem sixtyLegalOperationWords : Obligations.SixtyLegalOperationWords := by
  refine ⟨filterMap_decodeOpw.trans flatMap_operationsOfKind, ?_, fun _ _ => decodeOpw_eq_instr_iff⟩
  refine Eq.trans (List.countP_congr fun n _ => ?_) countP_rejected
  cases decodeOpw (BitVec.ofNat 10 n) <;> simp

end Sys2Proof

/-! The words by number and by their meaning: what `exec` does with a reserved word (30_encoding.md R48), and the record
a step leaves on the event port (30_encoding.md R50, R51). -/

namespace Sys2Proof.Machine

theorem kswOpw_eq_opwOf (i : BitVec 6) : kswOpw i = opwOf 1 i := (opwOf_eq_add 1 i).symm

theorem arkOpw_eq_opwOf (r : BitVec 6) : arkOpw r = opwOf 3 r := (opwOf_eq_add 3 r).symm

theorem encode_ksw (i : BitVec 6) : encode (.ksw i) = .opw (kswOpw i) := by rw [kswOpw_eq_opwOf, encode]

theorem encode_ark (r : BitVec 6) : encode (.ark r) = .opw (arkOpw r) := by rw [arkOpw_eq_opwOf, encode]

theorem execKsw_refused {i : BitVec 6} (h : 44 ≤ i.toNat) (s : State) :
    execKsw i s = .refused (.reservedOperation (kswOpw i)) := by
  simp [execKsw, h]

theorem execArk_refused {r : BitVec 6} (h : 11 ≤ r.toNat) (s : State) :
    execArk r s = .refused (.reservedOperation (arkOpw r)) := by
  simp [execArk, h]

/-- Settles O5: the words that KSW and ARK report are the encoder's, and the rest are numbers. -/
theorem operationWordsOfTheTable : Obligations.OperationWordsOfTheTable := by
  refine ⟨fun i _ => encode_ksw i, rfl, fun r _ => encode_ark r, rfl, rfl, rfl, rfl, fun i => ?_, fun r => ?_⟩
  · simp [Instr.WellFormed, Nat.lt_succ_iff]
  · simp [Instr.WellFormed, Nat.lt_succ_iff]

/-- Settles O4: a rejected word's argument lies past the end of its kind's list, and only KSW and ARK have an argument
that can. -/
theorem reservedWordsHaveNoMeaning : Obligations.ReservedWordsHaveNoMeaning := by
  refine ⟨fun w => decodeOpw_rejected_iff.trans (length_operationsOfKind_le_iff _ _), fun i s h => ?_⟩
  cases i with
  | ksw n =>
    have h44 : 44 ≤ n.toNat := by simpa [Instr.WellFormed] using h
    obtain ⟨e, he⟩ : ∃ e, decodeOpw (kswOpw n) = .rejected e := decodeOpw_rejected_iff.mpr (by
      rw [kswOpw_eq_opwOf, kindField_opwOf, argField_opwOf]
      exact h44)
    exact ⟨kswOpw n, e, encode_ksw n, he, execKsw_refused h44 s⟩
  | ark r =>
    have h11 : 11 ≤ r.toNat := by simpa [Instr.WellFormed] using h
    obtain ⟨e, he⟩ : ∃ e, decodeOpw (arkOpw r) = .rejected e := decodeOpw_rejected_iff.mpr (by
      rw [arkOpw_eq_opwOf, kindField_opwOf, argField_opwOf]
      exact h11)
    exact ⟨arkOpw r, e, encode_ark r, he, execArk_refused h11 s⟩
  | _ => cases h

@[simp] theorem State.destination_setPc (s : State) (w : BitVec 10) (p : Position) :
    (s.setPc p).destination w = s.destination w := rfl

@[simp] theorem State.destination_popInputs (s : State) (w : BitVec 10) :
    s.popInputs.destination w = s.destination w := rfl

theorem State.destination_ksw (s : State) {w : BitVec 10} {i : BitVec 6} (hd : decodeOpw w = .instr (.ksw i))
    (h : i.toNat < 44) : s.destination w = padWord s.W[i.toNat] := by
  simp [State.destination, hd, h]

theorem State.destination_stc (s : State) {w : BitVec 10} (hd : decodeOpw w = .instr .stc) :
    s.destination w = s.CT := by
  simp [State.destination, hd]

/-- The record of any other operation shows `S`. -/
theorem State.destination_S (s : State) {w : BitVec 10} {i : Instr} (hd : decodeOpw w = .instr i)
    (hksw : ∀ n, i ≠ .ksw n) (hstc : i ≠ .stc) : s.destination w = s.S := by
  cases i with
  | ksw n => exact absurd rfl (hksw n)
  | stc => exact absurd rfl hstc
  | _ => simp [State.destination, hd]

/-- What an operation writes is its word's destination, and its record shows that before and after
(30_encoding.md R51). -/
theorem exec_event {i : Instr} {w : BitVec 10} {s u : State} (hd : decodeOpw w = .instr i) (hu : exec i s = .next u) :
    u.ev = some { opw := w, before := s.destination w, after := u.destination w } := by
  obtain ⟨wf, he⟩ := decodeOpw_eq_instr_iff.mp hd
  cases i with
  | ksw n =>
    have h : n.toNat < 44 := of_decide_eq_true wf
    obtain rfl : kswOpw n = w := Code.opw.inj ((encode_ksw n).symm.trans he)
    obtain rfl := Host.Outcome.next.inj ((execKsw_eq h s).symm.trans hu)
    simp [State.destination_ksw _ hd h]
  | ark r =>
    have h : r.toNat < 11 := of_decide_eq_true wf
    obtain rfl : arkOpw r = w := Code.opw.inj ((encode_ark r).symm.trans he)
    obtain rfl := Host.Outcome.next.inj ((execArk_eq h s).symm.trans hu)
    simp [State.destination_S _ hd nofun nofun]
  | lds | sub | shr | mix =>
    obtain rfl := Code.opw.inj he
    obtain rfl := Host.Outcome.next.inj hu
    simp only [State.destination_S _ hd nofun nofun]
    rfl
  | stc =>
    obtain rfl := Code.opw.inj he
    obtain rfl := Host.Outcome.next.inj hu
    simp only [State.destination_stc _ hd]
    rfl
  | start | reset => cases he

theorem acceptStart_ev (s : State) : s.acceptStart.ev = none := by
  unfold State.acceptStart
  split <;> rfl

/-- Settles O24: the operation of a busy position emits its record, and moving the position and the ports on changes
neither the record nor a destination; the three other things a step can do clear the port. -/
theorem busyStepEmitsItsRecord : Obligations.BusyStepEmitsItsRecord := by
  refine ⟨fun s w hw hr => ?busy, fun s t ht hquiet => ?quiet⟩
  case busy =>
    obtain ⟨_, i, q, u, -, -, -, hd, hu, hs⟩ := step_operation hr hw
    exact ⟨_, hs, by simpa using exec_event hd hu⟩
  case quiet =>
    rcases step_cases ht with ⟨-, rfl⟩ | ⟨-, -, -, rfl⟩ | ⟨-, -, -, rfl⟩ | ⟨hr, hw, -⟩
    · rfl
    · exact acceptStart_ev s
    · rfl
    · simp [hr, hw] at hquiet

end Sys2Proof.Machine

/-! The pseudo-operations (30_encoding.md R53). -/

namespace Sys2Proof.Machine

theorem length_pseudoKeyExpand : pseudoKeyExpand.length = 44 := by simp [pseudoKeyExpand]

theorem getElem?_pseudoKeyExpand {i : Nat} (h : i < 44) : pseudoKeyExpand[i]? = some (.ksw (BitVec.ofNat 6 i)) := by
  simp [pseudoKeyExpand, h]

theorem pseudoRound_middle {r : Nat} (h1 : 1 ≤ r) (h9 : r ≤ 9) :
    pseudoRound r = [.sub, .shr, .mix, .ark (BitVec.ofNat 6 r)] := by
  rw [pseudoRound, if_neg (Nat.ne_of_gt h1), if_pos h9]

theorem pseudoRound_beyond {r : Nat} (h : 10 < r) : pseudoRound r = [] := by
  rw [pseudoRound, if_neg (by omega), if_neg (by omega), if_neg (by omega)]

/-- Settles O17: the lists by cases on the round, and ENCRYPT by writing its eleven rounds out. -/
theorem pseudoOperationsExpand : Obligations.PseudoOperationsExpand := by
  refine ⟨length_pseudoKeyExpand, fun _ => getElem?_pseudoKeyExpand, rfl, fun _ => pseudoRound_middle, rfl,
    fun _ => pseudoRound_beyond, ?encrypt, ?length, fun i h => ?ksw⟩
  case encrypt => simp [pseudoEncrypt, List.range_succ]
  case length => simp [pseudoEncrypt, length_pseudoKeyExpand, List.range_succ, pseudoRound]
  case ksw => exact decide_eq_false (Nat.not_lt.mpr h)

end Sys2Proof.Machine

/-! The multiplier as a sum (40_gf_multiplier.md R63). The loop's second component holds `XTIMES(a, i)` at turn `i`,
so its first one collects the terms of the set bits; terms are added by XOR and may be taken in any order. -/

namespace Sys2Proof.Machine

/-- The summand of bit `i` added to a partial product: `XTIMES(a, i)` where `b[i] = 1`, else nothing. -/
def addSummand (a b acc : Byte) (i : Nat) : Byte := if b.getLsbD i then acc ^^^ xtimes a i else acc

theorem addSummand_right_comm (a b acc : Byte) (i j : Nat) :
    addSummand a b (addSummand a b acc i) j = addSummand a b (addSummand a b acc j) i := by
  unfold addSummand
  split_ifs
  case pos => ac_rfl
  all_goals rfl

/-- After `n` turns the loop of GFMUL holds the sum of the first `n` summands beside `XTIMES(a, n)`. -/
theorem foldl_gfmulTurn_range (a b : Byte) (n : Nat) :
    (List.range n).foldl (gfmulTurn b) (0, a) = ((List.range n).foldl (addSummand a b) 0, xtimes a n) := by
  induction n with
  | zero => rfl
  | succ n ih =>
    rw [List.range_succ, List.foldl_concat, List.foldl_concat, ih]
    rfl

theorem gfmul_eq_foldl_addSummand (a b : Byte) : gfmul a b = [0, 1, 2, 3, 4, 5, 6, 7].foldl (addSummand a b) 0 :=
  congrArg Prod.fst (foldl_gfmulTurn_range a b 8)

/-- Settles O47: the loop adds the summands from bit 0 up, and summands commute. -/
theorem gfmulIsTheXorOfShiftedOperands : Obligations.GfmulIsTheXorOfShiftedOperands := by
  intro a b order perm
  have reorder : order.foldl (addSummand a b) 0 = [0, 1, 2, 3, 4, 5, 6, 7].foldl (addSummand a b) 0 :=
    perm.foldl_eq' (fun i _ j _ acc => addSummand_right_comm a b acc i j) 0
  exact (gfmul_eq_foldl_addSummand a b).trans reorder.symm

@[simp] theorem gfmul_zero (a : Byte) : gfmul a 0 = 0 := by
  simp [gfmul_eq_foldl_addSummand, addSummand]

/-- Bit 0 alone is set, and its summand is `XTIMES(a, 0) = a`. -/
@[simp] theorem gfmul_one (a : Byte) : gfmul a 1 = a := by
  simp [gfmul_eq_foldl_addSummand, addSummand, xtimes]

/-- Bit 1 alone is set, and its summand is `XTIMES(a, 1)`. -/
@[simp] theorem gfmul_two (a : Byte) : gfmul a 2 = xtime a := by
  simp [gfmul_eq_foldl_addSummand, addSummand, xtimes]

/-- Settles O48: with no bit or only bit 0 set, the sum has no summand or only `a`. -/
theorem gfmulIdentityAndAnnihilator : Obligations.GfmulIdentityAndAnnihilator :=
  fun a => ⟨gfmul_one a, gfmul_zero a⟩

end Sys2Proof.Machine

/-! The multiplier test port (40_gf_multiplier.md R66). No choice and no instruction reads `GFA` or `GFB`, and a step
uses up the port values it saw, so other operands leave no trace in the state it leads to. -/

namespace Sys2Proof.Machine

section

/-- The operands `a` and `b` on `GFA` and `GFB` in the next step, and every other port as it was. -/
def State.withOperands (s : State) (a b : Byte) : State := s.withInput { s.input with GFA := a, GFB := b }

variable (s : State) (a b : Byte)

theorem State.GFP_withOperands : (s.withOperands a b).GFP = gfmul a b := rfl

theorem State.popInputs_withOperands : (s.withOperands a b).popInputs = s.popInputs := rfl

theorem State.choice_withOperands : (s.withOperands a b).choice = s.choice := rfl

theorem State.acceptStart_withOperands : (s.withOperands a b).acceptStart = s.acceptStart.withOperands a b := by
  by_cases length : s.input.KEYLEN = 16
  · rw [acceptStart_of_length s length, acceptStart_of_length (s.withOperands a b) length]
    rfl
  · rw [acceptStart_of_bad_length s length, acceptStart_of_bad_length (s.withOperands a b) length]
    rfl

theorem onNext_onNext (o : Host.Outcome State Fault Refusal) (f g : State → State) :
    onNext (onNext o f) g = onNext o fun t => g (f t) := by
  cases o <;> rfl

/-- Every instruction takes the operands along unread. -/
theorem exec_withOperands (i : Instr) :
    exec i (s.withOperands a b) = onNext (exec i s) fun t => t.withOperands a b := by
  cases i with
  | ksw | ark =>
    simp only [exec, execKsw, execArk]
    split <;> rfl
  | start =>
    by_cases accepted : s.input.RST = false ∧ s.pc.PH.acceptsStart = true
    · obtain ⟨noReset, waiting⟩ := accepted
      have taken : exec .start s = .next s.acceptStart := execStart_accepted s noReset waiting
      rw [taken, onNext_next, ← State.acceptStart_withOperands]
      exact execStart_accepted (s.withOperands a b) noReset waiting
    · have ignored : exec .start s = .next s := if_neg accepted
      rw [ignored]
      exact if_neg accepted
  | lds | sub | shr | mix | stc | reset => rfl

theorem step_withOperands : step (s.withOperands a b) = step s := by
  unfold step
  rw [State.choice_withOperands]
  cases s.choice with
  | command i => simp only [exec_withOperands, onNext_onNext, State.popInputs_withOperands]
  | operation w p =>
    have moved (t : State) : ((t.withOperands a b).setPc p).popInputs = (t.setPc p).popInputs := rfl
    simp only [exec_withOperands, onNext_onNext, moved]
  | stutter => rfl
  | unreachable => rfl

end

theorem State.GFP_congr {s t : State} (hA : s.input.GFA = t.input.GFA) (hB : s.input.GFB = t.input.GFB) :
    s.GFP = t.GFP :=
  congrArg₂ gfmul hA hB

/-- Settles O15: the port is `gfmul` of the two operands, a step does not see them, and 2 has only bit 1 set. -/
theorem multiplierPortIsCombinational : Obligations.MultiplierPortIsCombinational :=
  ⟨fun s a b => ⟨s.GFP_withOperands a b, step_withOperands s a b⟩, fun _ _ => State.GFP_congr, gfmul_two⟩

end Sys2Proof.Machine

/-! The key-schedule expander (42_key_schedule.md). RotWord and Rcon are read byte by byte after any number of turns; KSW
is one write of `W[i]`, at the word of its position, and no operation outside KEXP writes the schedule. -/

namespace Sys2Proof.Machine

/-- `k` applications of RotWord rotate by `k` bytes (42_key_schedule.md R80). -/
theorem rotWord_iterate_getElem (k : Nat) (w : Word) (j : Nat) (hj : j < 4) :
    (rotWord^[k] w)[j] = w[(j + k) % 4]'(Nat.mod_lt _ (by decide)) := by
  induction k generalizing j with
  | zero => simp [Nat.mod_eq_of_lt hj]
  | succ k ih =>
    have turn : ((j + 1) % 4 + k) % 4 = (j + (k + 1)) % 4 := by omega
    simp only [Function.iterate_succ_apply', rotWord_getElem, ih, turn]

/-- Settles O51: four turns bring each byte back to its place; fewer bring byte `k`, which is not 0 in the word 0, 1, 2,
3, to the place of byte 0. -/
theorem rotWordIsCyclic : Obligations.RotWordIsCyclic := by
  refine ⟨fun w j => rotWord_getElem w j j.isLt, fun w => Vector.ext fun j hj => ?four, fun k hpos hlt => ?fewer,
    fun _ => rfl⟩
  case four =>
    have place : (j + 4) % 4 = j := by omega
    simp only [rotWord_iterate_getElem, place]
  case fewer =>
    refine ⟨#v[0, 1, 2, 3], fun same => ?_⟩
    have moved := rotWord_iterate_getElem k #v[0, 1, 2, 3] 0 (by decide)
    rw [same] at moved
    interval_cases k <;> cases moved

theorem xtimes_eq_iterate (a : Byte) (i : Nat) : xtimes a i = xtime^[i] a := by
  induction i with
  | zero => rfl
  | succ i ih => rw [xtimes, ih, Function.iterate_succ_apply']

/-- Settles O53: `xtimes` is iterated `xtime`; 9 and 10 stand past the reduction. -/
theorem rconIsPowersOfX : Obligations.RconIsPowersOfX :=
  ⟨fun _ _ => ⟨xtimes_eq_iterate _ _, rfl, rfl, rfl⟩, by decide, by decide⟩

/-- The word of KSW `n` by its number (30_encoding.md R46). -/
theorem kswOpw_ofNat {n : Nat} (h : n < 64) : kswOpw (BitVec.ofNat 6 n) = BitVec.ofNat 10 (0x040 + n) :=
  (kswOpw_eq_opwOf _).trans (ofNat_eq_opwOf (k := 1) (by decide) h).symm

theorem toNat_ofNat_index {n : Nat} (h : n < 44) : (BitVec.ofNat 6 n).toNat = n :=
  Nat.mod_eq_of_lt (by omega)

theorem opAt_kexp {i : BitVec 6} (h : i.toNat < 44) : opAt (Position.kexp i) = some (kswOpw i) :=
  if_pos ⟨rfl, h⟩

/-- Step `n` of a run performs KSW `n` (44_sequencer.md R104). -/
theorem opAt_runPosition_kexp {n : Nat} (h : n < 44) : opAt (runPosition n) = some (BitVec.ofNat 10 (0x040 + n)) := by
  have position : runPosition n = Position.kexp (BitVec.ofNat 6 n) := if_pos h
  rw [position, opAt_kexp (by rwa [toNat_ofNat_index h]), kswOpw_ofNat (by omega)]

/-- Everything KSW `i` does, by the number `i` (42_key_schedule.md R84). -/
theorem exec_ksw {i : Nat} (hi : i < 44) (s : State) :
    exec (.ksw (BitVec.ofNat 6 i)) s =
      .next (s.writeWord (BitVec.ofNat 10 (0x040 + i)) ⟨i, hi⟩ (kswWord s.KEYR s.W ⟨i, hi⟩)) := by
  have arg := toNat_ofNat_index hi
  simp only [exec, execKsw_eq (arg.trans_lt hi), arg, kswOpw_ofNat (hi.trans (by decide))]

/-- Settles O27: KSW writes `kswWord` into `W[i]`, which has one equation for each of the three kinds of `i`. -/
theorem kswComputesTheScheduleWord : Obligations.KswComputesTheScheduleWord := by
  refine ⟨fun i hi s => ⟨_, exec_ksw hi s, fun h j => ?key, fun h j hm => ?plain, fun h j hm => ?core,
    sameButWord_writeWord s _ ⟨i, hi⟩ _, ?record⟩, fun _ => opAt_runPosition_kexp⟩
  case key => simp [kswWord_key _ _ ⟨i, hi⟩ h, cell, lin]
  case plain => simp [kswWord_plain _ _ ⟨i, hi⟩ h hm]
  case core => simp [kswWord_core _ _ ⟨i, hi⟩ h hm, Config.rconSeed]
  case record => simp

/-- An operation other than KSW leaves the schedule (20_memory.md R36). -/
theorem exec_operation_W {i : Instr} {s u : State} (hksw : ∀ n, i ≠ .ksw n) (hstart : i ≠ .start) (hreset : i ≠ .reset)
    (hu : exec i s = .next u) : u.W = s.W := by
  cases i with
  | ksw n => exact absurd rfl (hksw n)
  | ark r =>
    by_cases hr : r.toNat < 11
    · obtain rfl := Host.Outcome.next.inj ((execArk_eq hr s).symm.trans hu)
      rfl
    · cases (execArk_refused (Nat.not_lt.mp hr) s).symm.trans hu
  | lds | sub | shr | mix | stc =>
    obtain rfl := Host.Outcome.next.inj hu
    rfl
  | start => exact absurd rfl hstart
  | reset => exact absurd rfl hreset

/-- KSW is performed in KEXP only (44_sequencer.md R104). -/
theorem PositionCase.ne_ksw {p q : Position} {i : Instr} (hc : PositionCase p i q) (hp : p.PH ≠ .kexp) (n : BitVec 6) :
    i ≠ .ksw n := by
  rintro rfl
  cases hc <;> exact hp rfl

theorem acceptStart_W (s : State) : s.acceptStart.W = zeroSchedule := by
  unfold State.acceptStart
  split <;> rfl

/-- A step in a phase other than KEXP, without reset and without an accepted START, leaves the schedule. -/
theorem step_W_of_not_kexp {s t : State} (hp : s.pc.PH ≠ .kexp) (hr : s.input.RST = false)
    (hs : s.pc.isWaiting = false ∨ s.input.START = false) (ht : step s = .next t) : t.W = s.W := by
  rcases step_cases ht with ⟨reset, -⟩ | ⟨-, waiting, start, -⟩ | ⟨-, -, -, rfl⟩ | ⟨-, -, _, i, q, u, rfl, hc, hu, rfl⟩
  · simp [hr] at reset
  · simp [waiting, start] at hs
  · rfl
  · obtain ⟨hstart, hreset⟩ := hc.ne_command
    have kept : u.W = s.W := exec_operation_W (hc.ne_ksw hp) hstart hreset hu
    exact kept

theorem step_W_of_start {s t : State} (hw : s.pc.isWaiting = true) (hr : s.input.RST = false)
    (hs : s.input.START = true) (ht : step s = .next t) : t.W = zeroSchedule := by
  rcases step_cases ht with ⟨reset, -⟩ | ⟨-, -, -, rfl⟩ | ⟨-, -, quiet, -⟩ | ⟨-, busy, -⟩
  · simp [hr] at reset
  · exact acceptStart_W s
  · simp [hs] at quiet
  · simp [hw] at busy

/-- Settles O40: the phases named are not KEXP, and every accepted START clears the schedule before it looks at the
length. -/
theorem scheduleIsImmutableOnceBuilt : Obligations.ScheduleIsImmutableOnceBuilt := by
  refine ⟨fun s t phase ht hr hs => step_W_of_not_kexp ?_ hr hs ht, fun _ _ hw hr hs => step_W_of_start hw hr hs⟩
  rcases phase with h | h | h | h <;> simp [h]

end Sys2Proof.Machine

/-! The round transforms (43_round_transforms.md). Each is one write of `S`, so its frame and its record are those of
`writeS`; what is left to say is each cell of the value written. -/

namespace Sys2Proof.Machine

/-- The word of ARK `r` by its number (30_encoding.md R46). -/
theorem arkOpw_ofNat {r : Nat} (h : r < 64) : arkOpw (BitVec.ofNat 6 r) = BitVec.ofNat 10 (0x0C0 + r) :=
  (arkOpw_eq_opwOf _).trans (ofNat_eq_opwOf (k := 3) (by decide) h).symm

/-- Everything ARK `r` does, by the number `r` (43_round_transforms.md R95). -/
theorem exec_ark {r : Nat} (hr : r < 11) (s : State) :
    exec (.ark (BitVec.ofNat 6 r)) s =
      .next (s.writeS (BitVec.ofNat 10 (0x0C0 + r)) (addRoundKey s.W ⟨r, hr⟩ s.S)) := by
  have arg := toNat_ofNat_index (hr.trans (by decide))
  simp only [exec, execArk_eq (arg.trans_lt hr), arg, arkOpw_ofNat (hr.trans (by decide))]

/-- ARK answers a next state only for a round that exists, and then it has written `S`. -/
theorem execArk_eq_next {r : BitVec 6} {s t : State} (h : execArk r s = .next t) :
    ∃ hr : r.toNat < 11, t = s.writeS (arkOpw r) (addRoundKey s.W ⟨r.toNat, hr⟩ s.S) := by
  by_cases hr : r.toNat < 11
  · exact ⟨hr, (Host.Outcome.next.inj ((execArk_eq hr s).symm.trans h)).symm⟩
  · cases (execArk_refused (Nat.not_lt.mp hr) s).symm.trans h

/-- ARK leaves the schedule, so a second ARK adds the same round key. -/
theorem execArk_twice_S {r : BitVec 6} {s t u : State} (ht : execArk r s = .next t) (hu : execArk r t = .next u) :
    u.S = s.S := by
  obtain ⟨hr, rfl⟩ := execArk_eq_next ht
  obtain ⟨-, rfl⟩ := execArk_eq_next hu
  exact addRoundKey_involutive s.W ⟨r.toNat, hr⟩ s.S

/-- Settles O33: ARK writes `addRoundKey`, whose cells are sums, and adding a round key twice adds nothing. -/
theorem arkXorsTheRoundKey : Obligations.ArkXorsTheRoundKey :=
  ⟨fun _ hr s => ⟨_, exec_ark hr s, cell_addRoundKey s.W ⟨_, hr⟩ s.S, sameButS_writeS s _ _, rfl⟩,
    fun _ _ _ _ => execArk_twice_S⟩

/-- Settles O30: SUB writes `subBytes`. -/
theorem subReplacesEveryByte : Obligations.SubReplacesEveryByte :=
  fun s => ⟨_, exec_sub s, cell_subBytes s.S, sameButS_writeS s _ _, rfl⟩

/-- ShiftRows in linear indices (43_round_transforms.md R92). -/
theorem shiftRows_getElem_lin (b : Block) (row col : Fin 4) :
    (shiftRows b)[4 * col.val + row.val] = b[4 * ((col.val + row.val) % 4) + row.val] :=
  cell_shiftRows b row col

theorem cell_shiftRows_zero (b : Block) (col : Fin 4) : cell (shiftRows b) 0 col = cell b 0 col := by
  rw [cell_shiftRows, add_zero]

theorem shiftRows_of_equal_columns {b : Block} (h : ∀ row col, cell b row col = cell b row 0) : shiftRows b = b :=
  Block.ext_cell fun row col => by rw [cell_shiftRows, h row (col + row), h row col]

/-- Settles O31: SHR writes `shiftRows`, and its corner cases are cases of the one cell equation. -/
theorem shrRotatesEachRow : Obligations.ShrRotatesEachRow :=
  fun s => ⟨_, exec_shr s, cell_shiftRows s.S, shiftRows_getElem_lin s.S, cell_shiftRows_zero s.S,
    shiftRows_of_equal_columns, sameButS_writeS s _ _, rfl⟩

/-- The four equations of MixColumns on column `c` (43_round_transforms.md R93). -/
theorem mixColumns_column (b : Block) (c : Fin 4) :
    cell (mixColumns b) 0 c = gfmul (cell b 0 c) 0x02 ^^^ gfmul (cell b 1 c) 0x03 ^^^ cell b 2 c ^^^ cell b 3 c ∧
    cell (mixColumns b) 1 c = cell b 0 c ^^^ gfmul (cell b 1 c) 0x02 ^^^ gfmul (cell b 2 c) 0x03 ^^^ cell b 3 c ∧
    cell (mixColumns b) 2 c = cell b 0 c ^^^ cell b 1 c ^^^ gfmul (cell b 2 c) 0x02 ^^^ gfmul (cell b 3 c) 0x03 ∧
    cell (mixColumns b) 3 c = gfmul (cell b 0 c) 0x03 ^^^ cell b 1 c ^^^ cell b 2 c ^^^ gfmul (cell b 3 c) 0x02 := by
  simp only [cell_mixColumns, mixColumn, wordOfBlock_getElem]
  exact ⟨rfl, rfl, rfl, rfl⟩

/-- MIX is performed in the rounds 1..9 (44_sequencer.md R104). -/
theorem PositionCase.mix_round {p q : Position} (h : PositionCase p .mix q) : 1 ≤ p.R.toNat ∧ p.R.toNat ≤ 9 := by
  cases h with
  | mix r h => exact h

theorem round_of_opAt_mix {p : Position} (h : opAt p = some 0x180) : 1 ≤ p.R.toNat ∧ p.R.toNat ≤ 9 := by
  obtain ⟨i, q, hc, -, hd, -⟩ := opAt_cases h
  obtain rfl : .mix = i := Decoded.instr.inj hd
  exact hc.mix_round

/-- Settles O32: MIX writes `mixColumns`, and its word is that of the positions (ROUND, 43, r, 2) with r in 1..9 only. -/
theorem mixMultipliesEachColumn : Obligations.MixMultipliesEachColumn :=
  ⟨fun s => ⟨_, exec_mix s, mixColumns_column s.S, sameButS_writeS s _ _, rfl⟩, fun _ => round_of_opAt_mix⟩

/-- A rotation by a multiple of the length of the row is the identity (43_round_transforms.md R91). -/
theorem rotRowLeft_of_four_dvd (x : Word) {amt : Nat} (h : 4 ∣ amt) : rotRowLeft x amt = x := by
  refine Vector.ext fun c hc => ?_
  have place : (c + amt) % 4 = c := by omega
  simp only [rotRowLeft_getElem, place]

/-- Settles O56: the equation of a byte is the definition, and 0 and 4 are multiples of 4. -/
theorem rotRowLeftIsCyclic : Obligations.RotRowLeftIsCyclic :=
  ⟨fun x amt c => rotRowLeft_getElem x amt c c.isLt,
    fun x => ⟨rotRowLeft_of_four_dvd x (by decide), rotRowLeft_of_four_dvd x (by decide)⟩⟩

end Sys2Proof.Machine

/-! One step by its cases (44_sequencer.md R106), as equations: a step that is not busy answers the state named here. With
`step_operation` for the busy positions they say what each step gives; the host commands, the stutter and the observer
(44_sequencer.md R101, R109, R113) follow. -/

namespace Sys2Proof.Machine

theorem step_of_start {s : State} (hw : s.pc.isWaiting = true) (hr : s.input.RST = false)
    (hs : s.input.START = true) : step s = .next s.acceptStart.popInputs := by
  have accepted : exec .start s = .next s.acceptStart :=
    execStart_accepted s hr (Position.acceptsStart_of_isWaiting hw)
  simp [step, State.choice, hr, hw, hs, accepted]

theorem step_of_stutter {s : State} (hw : s.pc.isWaiting = true) (hr : s.input.RST = false)
    (hs : s.input.START = false) : step s = .next s.noEvent.popInputs := by
  simp [step, State.choice, hr, hw, hs]

theorem Phase.acceptsStart_of_isBusy {p : Phase} (h : p.isBusy = true) : p.acceptsStart = false := by
  cases p <;> cases h <;> rfl

/-- START in a busy phase is ignored, and beside a reset it is lost (70_reset_and_hazards.md R151, R153). -/
theorem execStart_ignored {s : State} (h : s.input.RST = true ∨ s.pc.PH.isBusy = true) : execStart s = .next s := by
  refine if_neg fun ⟨noReset, waiting⟩ => ?_
  rcases h with reset | busy
  · simp [reset] at noReset
  · simp [Phase.acceptsStart_of_isBusy busy] at waiting

/-- Settles O34: an accepted START by its length, an ignored one, and the status outputs of the position it leads to. -/
theorem startBeginsARun : Obligations.StartBeginsARun := by
  refine ⟨fun s hr hp hlen => ?begun, fun s hr hp hlen => ?raised, fun s => execStart_ignored,
    fun s hw hr hs => ⟨_, step_of_start hw hr hs, ?status⟩⟩
  case begun =>
    refine (execStart_accepted s hr hp).trans ?_
    rw [acceptStart_of_length s hlen]
    rfl
  case raised =>
    refine (execStart_accepted s hr hp).trans ?_
    rw [acceptStart_of_bad_length s hlen]
    rfl
  case status =>
    by_cases hlen : s.input.KEYLEN = 16
    · rw [acceptStart_of_length s hlen, decide_eq_true hlen, decide_eq_false (not_not_intro hlen)]
      exact ⟨rfl, rfl, rfl⟩
    · rw [acceptStart_of_bad_length s hlen, decide_eq_false hlen, decide_eq_true hlen]
      exact ⟨rfl, rfl, rfl⟩

/-- A waiting position is kept for as many steps as ask for nothing (44_sequencer.md R113). -/
theorem run_stutter {n : Nat} {s : State} (hw : s.pc.isWaiting = true)
    (quiet : ∀ k < n, (s.inputOf k).RST = false ∧ (s.inputOf k).START = false) :
    ∃ t, run n s = .next t ∧ s.SameRegisters t ∧ (0 < n → t.ev = none) := by
  induction n with
  | zero => exact ⟨s, run_zero s, ⟨rfl, rfl, rfl, rfl, rfl, rfl, rfl⟩, nofun⟩
  | succ n ih =>
    obtain ⟨t, ht, same, -⟩ := ih fun k hk => quiet k (Nat.lt_succ_of_lt hk)
    obtain ⟨noReset, noStart⟩ := quiet n n.lt_succ_self
    rw [← run_input ht] at noReset noStart
    have waiting : t.pc.isWaiting = true := by
      obtain ⟨-, -, -, -, -, hpc, -⟩ := same
      rwa [hpc]
    exact ⟨_, (run_snoc ht).trans (step_of_stutter waiting noReset noStart), same, fun _ => rfl⟩

/-- A busy step leads to another position (44_sequencer.md R105). -/
theorem PositionCase.next_ne {p q : Position} {i : Instr} (h : PositionCase p i q) : q ≠ p := by
  cases h with
  | ksw i _ => simp [Position.kexp]
  | sub | shr | mix | ark => simp [Position.round]
  | lastKsw | lds | lastShr | lastArk | stc => decide

/-- Settles O10: the stutter by induction on the number of steps; a busy step moves to the next position, which is
another. -/
theorem stutterChangesNothing : Obligations.StutterChangesNothing := by
  refine ⟨fun n s hw quiet => ?waiting, fun s hb hr => ?busy⟩
  case waiting =>
    obtain ⟨t, ht, same, noEvent⟩ := run_stutter hw quiet
    exact ⟨t, ht, same, noEvent, run_inputs ht⟩
  case busy =>
    obtain ⟨w, hw⟩ := State.exists_opAt_of_isBusyReachable hb
    obtain ⟨_, i, q, u, rfl, hc, hq, -, -, hs⟩ := step_operation hr hw
    exact ⟨_, hs, hq, hc.next_ne⟩

section

/-- The state with `e` on the event port. -/
def State.withEvent (s : State) (e : Option Event) : State := { s with ev := e }

variable (s : State) (e : Option Event)

theorem State.acceptStart_withEvent : (s.withEvent e).acceptStart = s.acceptStart := by
  by_cases length : s.input.KEYLEN = 16
  · rw [acceptStart_of_length s length, acceptStart_of_length (s.withEvent e) length]
    rfl
  · rw [acceptStart_of_bad_length s length, acceptStart_of_bad_length (s.withEvent e) length]
    rfl

/-- An operation and RESET write the event port and do not read it. -/
theorem exec_withEvent {i : Instr} (h : i ≠ .start) : exec i (s.withEvent e) = exec i s := by
  cases i with
  | start => exact absurd rfl h
  | ksw | ark | lds | sub | shr | mix | stc | reset => rfl

/-- A step chooses START only where it is accepted (44_sequencer.md R106). -/
theorem State.started_of_choice {s : State} (h : s.choice = .command .start) :
    s.pc.isWaiting = true ∧ s.input.RST = false ∧ s.input.START = true := by
  unfold State.choice at h
  split_ifs at h with reset waiting start
  · cases h
  · exact ⟨waiting, Bool.eq_false_of_not_eq_true reset, start⟩
  · split at h <;> cases h

/-- An operation word never decodes to START. -/
theorem decodeOpw_ne_start (w : BitVec 10) : decodeOpw w ≠ .instr .start := by
  intro h
  obtain ⟨-, he⟩ := decodeOpw_eq_instr_iff.mp h
  cases he

theorem step_withEvent : step (s.withEvent e) = step s := by
  by_cases started : s.pc.isWaiting = true ∧ s.input.RST = false ∧ s.input.START = true
  · obtain ⟨hw, hr, hs⟩ := started
    rw [step_of_start hw hr hs, ← State.acceptStart_withEvent s e]
    exact step_of_start hw hr hs
  · have same : (s.withEvent e).choice = s.choice := rfl
    unfold step
    rw [same]
    cases hc : s.choice with
    | command i =>
      have other : i ≠ .start := by
        rintro rfl
        exact started (State.started_of_choice hc)
      simp only [exec_withEvent s e other]
    | operation w p =>
      cases hd : decodeOpw w with
      | rejected => simp only [decode, hd]
      | instr i =>
        have other : i ≠ .start := by
          rintro rfl
          exact decodeOpw_ne_start w hd
        simp only [decode, hd, exec_withEvent s e other]
    | stutter => rfl
    | unreachable => rfl

end

/-- Settles O16: a step does not read the event port, and the first step of a run writes it. -/
theorem observerCannotInfluence : Obligations.ObserverCannotInfluence := by
  refine ⟨step_withEvent, fun n s e hn => ?_⟩
  obtain ⟨n, rfl⟩ := Nat.exists_eq_add_of_le' hn
  have first : step { s with ev := e } = step s := step_withEvent s e
  rw [run_succ, run_succ, first]

end Sys2Proof.Machine

/-! LDS and STC (44_sequencer.md R102, R103): each copies a buffer in linear order, which is down the columns of `S`. -/

namespace Sys2Proof.Machine

/-- Settles O28: LDS writes all of `S` with `PTR`. -/
theorem ldsPlacesThePlaintext : Obligations.LdsPlacesThePlaintext :=
  fun s => ⟨_, exec_lds s, fun _ _ => rfl, rfl, sameButS_writeS s _ _, rfl⟩

theorem exec_lds_stc_CT {s t u : State} (ht : exec .lds s = .next t) (hu : exec .stc t = .next u) : u.CT = s.PTR := by
  obtain rfl := Host.Outcome.next.inj ht
  obtain rfl := Host.Outcome.next.inj hu
  rfl

/-- After STC the block stands in DONE (44_sequencer.md R105). -/
theorem PositionCase.eq_done {p q : Position} (h : PositionCase p .stc q) : q = Position.done := by
  cases h
  rfl

/-- Settles O29: STC writes all of `CT` with `S`; the word 0x1C0 is that of STC, after which the block is in DONE. -/
theorem stcStoresTheCiphertext : Obligations.StcStoresTheCiphertext := by
  refine ⟨fun s => ⟨_, exec_stc s, fun _ _ => rfl, sameButCT_writeCT s _ _, rfl⟩, fun _ _ _ => exec_lds_stc_CT,
    fun s hw hr => ?done⟩
  obtain ⟨_, i, q, u, -, hc, -, hd, hu, hs⟩ := step_operation hr hw
  obtain rfl : .stc = i := Decoded.instr.inj hd
  obtain rfl := hc.eq_done
  obtain rfl := Host.Outcome.next.inj hu
  exact ⟨_, hs, rfl, rfl, rfl⟩

end Sys2Proof.Machine

/-! The table of positions and the run through it (44_sequencer.md R104, R105, R108, R110). `Position.index` is the place
of a position in the table; the ten kinds of busy position stand where it says, each one place before its next position,
so the run, its operations and its length are read off the place. -/

namespace Sys2Proof.Machine

/-- The place of a position in the table of 44_sequencer.md R104: KEXP by `KI`, LOAD, the rounds by four sub-transforms,
round 10 without MIX, STORE, and after these 86 every position that is not busy. -/
def Position.index (p : Position) : Nat :=
  match p.PH with
  | .kexp => p.KI.toNat
  | .load => 44
  | .round => if p.R = 10 ∧ p.OPS = .ark then 84 else 42 + 4 * p.R.toNat + p.OPS.code.toNat
  | .store => 85
  | .idle | .done | .error => 86

theorem index_runPosition {n : Nat} (h : n < 87) : (runPosition n).index = n := by
  revert n
  decide

theorem opAt_runPosition_isSome {n : Nat} (h : n < 86) : (opAt (runPosition n)).isSome = true := by
  revert n
  decide

/-- A busy position, its operation and its next position stand in the table at the place of the position and the one
after it. -/
theorem PositionCase.at_index {p q : Position} {i : Instr} (h : PositionCase p i q) :
    p.index < 86 ∧ p = runPosition p.index ∧ q = runPosition (p.index + 1) ∧ pseudoEncrypt[p.index]? = some i := by
  cases h with
  | ksw i h =>
    revert i
    decide
  | sub r h | shr r h | mix r h | ark r h =>
    revert r
    decide
  | lastKsw | lds | lastShr | lastArk | stc => decide

/-- A run's position `n` performs operation `n` of ENCRYPT, and position `n + 1` is the next (44_sequencer.md R104). -/
theorem positionCase_runPosition {n : Nat} (h : n < 86) :
    ∃ w i, opAt (runPosition n) = some w ∧ decodeOpw w = .instr i ∧
      PositionCase (runPosition n) i (runPosition (n + 1)) ∧ pseudoEncrypt[n]? = some i := by
  obtain ⟨w, hw⟩ := Option.isSome_iff_exists.mp (opAt_runPosition_isSome h)
  obtain ⟨i, q, hc, -, hd, -⟩ := opAt_cases hw
  obtain ⟨-, -, hq, hi⟩ := hc.at_index
  rw [index_runPosition (Nat.lt_succ_of_lt h)] at hq hi
  subst hq
  exact ⟨w, i, hw, hd, hc, hi⟩

theorem runPosition_injective {m n : Nat} (hm : m < 87) (hn : n < 87) (h : runPosition m = runPosition n) : m = n := by
  rw [← index_runPosition hm, h, index_runPosition hn]

theorem Position.isWaiting_iff {p : Position} :
    p.isWaiting = true ↔ p = Position.idle ∨ p = Position.done ∨ p = Position.error := by
  simp [Position.isWaiting, or_assoc]

theorem opAt_isSome_iff {p : Position} : (opAt p).isSome = true ↔ ∃ n < 86, p = runPosition n := by
  constructor
  · intro h
    obtain ⟨w, hw⟩ := Option.isSome_iff_exists.mp h
    obtain ⟨i, q, hc, -⟩ := opAt_cases hw
    obtain ⟨hlt, hp, -⟩ := hc.at_index
    exact ⟨p.index, hlt, hp⟩
  · rintro ⟨n, hn, rfl⟩
    exact opAt_runPosition_isSome hn

/-- The 89 reachable positions (44_sequencer.md R104). -/
theorem Position.isReachable_iff {p : Position} :
    p.isReachable = true ↔
      p = Position.idle ∨ p = Position.error ∨ p = Position.done ∨ ∃ n < 86, p = runPosition n := by
  rw [Position.isReachable, Bool.or_eq_true, Position.isWaiting_iff, opAt_isSome_iff]
  tauto

theorem opAt_eq_none {p : Position} (h : p.PH = .idle ∨ p.PH = .done ∨ p.PH = .error) : opAt p = none := by
  rcases h with h | h | h <;> simp [opAt, h]

/-- A step at position `n` of a run without reset performs operation `n` and leads to position `n + 1`, with its record
on the event port and the latches kept. -/
theorem step_at_runPosition {s : State} {n : Nat} (hn : n < 86) (hpc : s.pc = runPosition n) (hr : s.input.RST = false) :
    ∃ t w i, step s = .next t ∧ t.pc = runPosition (n + 1) ∧ t.KEYR = s.KEYR ∧ t.PTR = s.PTR ∧
      t.ev = some { opw := w, before := s.destination w, after := t.destination w } ∧ decodeOpw w = .instr i ∧
      pseudoEncrypt[n]? = some i := by
  obtain ⟨w, i, hw, hd, -, hi⟩ := positionCase_runPosition hn
  obtain ⟨p, j, q, u, hp, hc, -, hd', hu, hs⟩ := step_operation hr (hpc ▸ hw)
  obtain rfl : j = i := Decoded.instr.inj (hd'.symm.trans hd)
  obtain ⟨-, -, hq, -⟩ := hc.at_index
  rw [← hp, hpc, index_runPosition (Nat.lt_succ_of_lt hn)] at hq
  obtain ⟨hkey, hpt, -⟩ := exec_operation_frame hc.ne_command.1 hc.ne_command.2 hu
  exact ⟨_, w, j, hs, hq, hkey, hpt, by simpa using exec_event hd hu, hd, hi⟩

/-- The state to which `s` takes an accepted START of length 16. -/
theorem step_of_starting {s : State} (h : s.Starting) :
    step s = .next (s.clearRun.beginRun s.input.KEY s.input.PT).popInputs := by
  obtain ⟨hw, hr, hs, hlen⟩ := h
  rw [step_of_start hw hr hs, acceptStart_of_length s hlen]

/-- A run without reset stands at position `n` of the table after `n + 1` steps, with the sampled key and plaintext. -/
theorem run_at_runPosition {s : State} {n : Nat} (hs : s.Starting) (hn : n ≤ 86)
    (hr : ∀ k ≤ n, (s.inputOf k).RST = false) :
    ∃ t, run (n + 1) s = .next t ∧ t.pc = runPosition n ∧ t.KEYR = s.input.KEY ∧ t.PTR = s.input.PT := by
  induction n with
  | zero => exact ⟨_, (run_snoc (run_zero s)).trans (step_of_starting hs), rfl, rfl, rfl⟩
  | succ n ih =>
    obtain ⟨t, ht, hpc, hkey, hpt⟩ := ih (by omega) fun k hk => hr k (by omega)
    have noReset : t.input.RST = false := by
      rw [run_input ht]
      exact hr (n + 1) le_rfl
    obtain ⟨u, w, i, hu, hpc', hkey', hpt', -⟩ := step_at_runPosition hn hpc noReset
    exact ⟨u, (run_snoc ht).trans hu, hpc', hkey'.trans hkey, hpt'.trans hpt⟩

/-- Settles O18: every statement about the table is read off the place of a position in it. -/
theorem runVisitsTheTable : Obligations.RunVisitsTheTable := by
  refine ⟨fun n hn => ?operations, fun _ => Position.isReachable_iff, fun _ _ => runPosition_injective,
    fun _ => opAt_eq_none, fun s n hs hn hr => ?run⟩
  case operations =>
    obtain ⟨w, i, hw, hd, -, hi⟩ := positionCase_runPosition hn
    exact ⟨w, i, hw, hd, hi⟩
  case run =>
    obtain ⟨t, ht, hpc, -⟩ := run_at_runPosition hs hn hr
    exact ⟨t, ht, hpc⟩

theorem PositionCase.isBusy {p q : Position} {i : Instr} (h : PositionCase p i q) : p.PH.isBusy = true := by
  cases h <;> rfl

theorem isBusy_runPosition {n : Nat} (h : n < 86) : (runPosition n).PH.isBusy = true := by
  obtain ⟨_, _, -, -, hc, -⟩ := positionCase_runPosition h
  exact hc.isBusy

theorem State.BUSY_of_runPosition {s : State} {n : Nat} (h : n < 86) (hpc : s.pc = runPosition n) : s.BUSY = true := by
  rw [State.BUSY, hpc, isBusy_runPosition h]

theorem State.DONE_of_pc {s : State} (hpc : s.pc = Position.done) : s.DONE = true :=
  s.DONE_iff.mpr (congrArg Position.PH hpc)

/-- Settles O19: the first 86 positions of the table are busy, and the 87th is DONE. -/
theorem runTerminatesAfterExactly86Steps : Obligations.RunTerminatesAfterExactly86Steps := by
  intro s hs hr
  refine ⟨fun n hn => ?busy, ?done⟩
  case busy =>
    obtain ⟨t, ht, hpc, -⟩ := run_at_runPosition hs hn.le fun k hk => hr k (hk.trans hn.le)
    have busy := State.BUSY_of_runPosition hn hpc
    exact ⟨t, ht, busy, Bool.eq_false_of_not_eq_true fun done => t.not_BUSY_and_DONE ⟨busy, done⟩⟩
  case done =>
    obtain ⟨t, ht, hpc, -⟩ := run_at_runPosition hs le_rfl hr
    exact ⟨t, ht, State.DONE_of_pc hpc⟩

/-- Settles O26: the step from position `n` emits the record of operation `n`; the list of operations is counted. -/
theorem runEmitsTheEncryptTrace : Obligations.RunEmitsTheEncryptTrace := by
  refine ⟨fun s n hs hn hr => ?records, by decide, by decide, by decide, by decide, by decide, by decide, by decide,
    by decide⟩
  obtain ⟨t, ht, hpc, -⟩ := run_at_runPosition hs hn.le fun k hk => hr k (Nat.le_succ_of_le hk)
  have noReset : t.input.RST = false := by
    rw [run_input ht]
    exact hr (n + 1) le_rfl
  obtain ⟨u, w, i, hu, -, -, -, record, hd, hi⟩ := step_at_runPosition hn hpc noReset
  exact ⟨t, u, w, i, ht, (run_snoc ht).trans hu, record, hd, hi⟩

end Sys2Proof.Machine

/-! The schedule as it is built (42_key_schedule.md R84, R86): after KSW 0 … KSW `n - 1` each word below `n` solves the
recurrence, and the words from `n` on are untouched. -/

namespace Sys2Proof.Machine

/-- KSW 0 … KSW `n - 1` from forty-four zero words. -/
def expandFirst (key : Block) (n : Nat) : Schedule := ((List.finRange 44).take n).foldl (kswStep key) zeroSchedule

theorem expandFirst_all (key : Block) : expandFirst key 44 = expand key := rfl

theorem expandFirst_succ (key : Block) (i : Fin 44) :
    expandFirst key (i.val + 1) = (expandFirst key i.val).set i.val (kswWord key (expandFirst key i.val) i) := by
  simp [expandFirst, List.take_add_one, kswStep]

theorem kswWord_set (key : Block) (w : Schedule) (x : Word) {i j : Fin 44} (h : i.val ≤ j.val) :
    kswWord key (w.set j.val x) i = kswWord key w i :=
  kswWord_congr fun _ _ hk => Vector.getElem_set_ne _ _ (Nat.ne_of_gt (hk.trans_le h))

/-- A word, once written, solves the recurrence in the schedule as far as built. -/
theorem expandFirst_recurrence (key : Block) {n : Nat} (hn : n ≤ 44) (i : Fin 44) (hi : i.val < n) :
    (expandFirst key n)[i.val] = kswWord key (expandFirst key n) i := by
  induction n with
  | zero => omega
  | succ n ih =>
    rw [expandFirst_succ key ⟨n, hn⟩]
    rcases Nat.lt_succ_iff_lt_or_eq.mp hi with older | rfl
    · rw [Vector.getElem_set_ne _ _ (Nat.ne_of_gt older), kswWord_set key _ _ (j := ⟨n, hn⟩) older.le]
      exact ih (by omega) older
    · rw [Vector.getElem_set_self, kswWord_set key _ _ (j := ⟨i.val, hn⟩) le_rfl]

/-- The recurrence of `Expand` (42_key_schedule.md R86). -/
theorem expand_recurrence (key : Block) (i : Fin 44) : (expand key)[i.val] = kswWord key (expand key) i := by
  rw [← expandFirst_all]
  exact expandFirst_recurrence key le_rfl i i.isLt

/-- `w` is the expansion of `key` below word `n`, and zero from there on (10_state.md R24 (b), (c)). -/
def BuiltBelow (key : Block) (w : Schedule) (n : Nat) : Prop :=
  ∀ i : Fin 44, w[i.val] = if i.val < n then (expand key)[i.val] else zeroWord

theorem builtBelow_zero (key : Block) : BuiltBelow key zeroSchedule 0 := by
  intro i
  simp

/-- KSW `i` builds word `i`. -/
theorem BuiltBelow.step {key : Block} {w : Schedule} {i : Fin 44} (h : BuiltBelow key w i.val) :
    BuiltBelow key (kswStep key w i) (i.val + 1) := by
  intro k
  have same : kswWord key w i = kswWord key (expand key) i := kswWord_congr fun k hk hlt => by
    rw [h ⟨k, hk⟩, if_pos hlt]
  unfold kswStep
  by_cases hk : k.val = i.val
  · obtain rfl : k = i := Fin.ext hk
    rw [Vector.getElem_set_self, same, if_pos (Nat.lt_succ_self _), expand_recurrence]
  · have below : k.val < i.val + 1 ↔ k.val < i.val := by omega
    rw [Vector.getElem_set_ne _ _ (Ne.symm hk), h k]
    simp only [below]

theorem BuiltBelow.complete {key : Block} {w : Schedule} (h : BuiltBelow key w 44) : w = expand key :=
  Vector.ext fun i hi => (h ⟨i, hi⟩).trans (if_pos hi)

end Sys2Proof.Machine

/-! The run invariant (10_state.md R24, 44_sequencer.md R107). Each operation takes `S` from its value at the position to
its value at the next one, builds its word of the schedule, and leaves `CT` until STC; so every step keeps the invariant,
and at DONE it says that the run has computed `Encrypt`. -/

namespace Sys2Proof.Machine

theorem afterArk_succ (w : Schedule) (pt : Block) (r : Nat) :
    afterArk w pt (r + 1) = middleRound w (afterArk w pt r) (Fin.ofNat 11 (r + 1)) := by
  simp [afterArk, List.range_succ]

theorem encrypt_eq_lastRound (key pt : Block) : encrypt key pt = lastRound (expand key) (afterArk (expand key) pt 9) := rfl

/-! `S` in a round, by the sub-transform that is next (44_sequencer.md R107). -/

theorem stateAt_sub (w : Schedule) (pt : Block) (r : BitVec 4) :
    stateAt w pt (Position.round r .sub) = afterArk w pt (r.toNat - 1) := rfl

theorem stateAt_shr (w : Schedule) (pt : Block) (r : BitVec 4) :
    stateAt w pt (Position.round r .shr) = subBytes (afterArk w pt (r.toNat - 1)) := rfl

theorem stateAt_mix (w : Schedule) (pt : Block) (r : BitVec 4) :
    stateAt w pt (Position.round r .mix) = shiftRows (subBytes (afterArk w pt (r.toNat - 1))) := rfl

theorem stateAt_lastArk (w : Schedule) (pt : Block) :
    stateAt w pt (Position.round 10 .ark) = shiftRows (subBytes (afterArk w pt 9)) := rfl

theorem stateAt_store (w : Schedule) (pt : Block) : stateAt w pt Position.store = lastRound w (afterArk w pt 9) := rfl

/-- `S` before ARK in a middle round (44_sequencer.md R107). -/
theorem stateAt_middle_ark (w : Schedule) (pt : Block) {r : BitVec 4} (h : 1 ≤ r.toNat ∧ r.toNat ≤ 9) :
    stateAt w pt (Position.round r .ark) = mixColumns (shiftRows (subBytes (afterArk w pt (r.toNat - 1)))) := by
  have h0 : r ≠ 0 := by
    rintro rfl
    exact absurd h (by decide)
  have h10 : r ≠ 10 := by
    rintro rfl
    exact absurd h (by decide)
  exact (if_neg h0).trans (if_neg h10)

/-- ARK `r` before round 10 leads to the value that `afterArk` names (44_sequencer.md R107). -/
theorem addRoundKey_stateAt (w : Schedule) (pt : Block) {r : BitVec 4} (hr : r.toNat ≤ 9) (h11 : r.toNat < 11) :
    addRoundKey w ⟨r.toNat, h11⟩ (stateAt w pt (Position.round r .ark)) = afterArk w pt r.toNat := by
  rcases Nat.eq_zero_or_pos r.toNat with h0 | hpos
  · obtain rfl : r = 0 := BitVec.eq_of_toNat_eq h0
    rfl
  · have round : r.toNat = r.toNat - 1 + 1 := by omega
    have index : (⟨r.toNat, h11⟩ : Fin 11) = Fin.ofNat 11 (r.toNat - 1 + 1) := by
      ext
      simp only [Fin.val_ofNat]
      omega
    calc addRoundKey w ⟨r.toNat, h11⟩ (stateAt w pt (Position.round r .ark))
        = middleRound w (afterArk w pt (r.toNat - 1)) (Fin.ofNat 11 (r.toNat - 1 + 1)) := by
          rw [stateAt_middle_ark w pt ⟨hpos, hr⟩, index, middleRound]
      _ = afterArk w pt (r.toNat - 1 + 1) := (afterArk_succ w pt _).symm
      _ = afterArk w pt r.toNat := by rw [← round]

/-- The operation of a position takes `S` from its value there to its value at the next position. -/
theorem PositionCase.tracks {p q : Position} {i : Instr} {s u : State} {w : Schedule} (hc : PositionCase p i q)
    (hu : exec i s = .next u) (hW : p.PH ≠ .kexp → s.W = w) (hS : s.S = stateAt w s.PTR p) :
    u.S = stateAt w s.PTR q := by
  cases hc with
  | ksw i h =>
    obtain rfl := Host.Outcome.next.inj ((execKsw_eq (by omega) s).symm.trans hu)
    exact hS
  | lastKsw | stc =>
    obtain rfl := Host.Outcome.next.inj hu
    exact hS
  | lds =>
    obtain rfl := Host.Outcome.next.inj hu
    rfl
  | sub r =>
    obtain rfl := Host.Outcome.next.inj hu
    rw [State.writeS_S, hS, stateAt_sub, stateAt_shr]
  | shr r =>
    obtain rfl := Host.Outcome.next.inj hu
    rw [State.writeS_S, hS, stateAt_shr, stateAt_mix]
  | lastShr =>
    obtain rfl := Host.Outcome.next.inj hu
    have round : (10 : BitVec 4).toNat - 1 = 9 := rfl
    rw [State.writeS_S, hS, stateAt_shr, stateAt_lastArk, round]
  | mix r h =>
    obtain rfl := Host.Outcome.next.inj hu
    rw [State.writeS_S, hS, stateAt_mix, stateAt_middle_ark w s.PTR h]
  | ark r h =>
    obtain ⟨hr, rfl⟩ := execArk_eq_next hu
    have arg : (r.setWidth 6).toNat = r.toNat := BitVec.toNat_setWidth_of_le (by decide)
    have next : (r + 1).toNat = r.toNat + 1 := BitVec.toNat_add_of_lt (show r.toNat + 1 < 16 by omega)
    have sum := addRoundKey_stateAt w s.PTR h (h.trans_lt (by decide))
    simp only [State.writeS_S, arg, hS, hW nofun, sum, stateAt_sub, next, Nat.add_sub_cancel]
  | lastArk =>
    obtain rfl := Host.Outcome.next.inj hu
    simp only [State.writeS_S, hS, hW nofun, stateAt_lastArk, stateAt_store]
    rfl

/-- How many words of the schedule stand before the step at a position (10_state.md R24 (b), (c)). -/
def wordsBuilt (p : Position) : Nat := if p.PH = .kexp then p.KI.toNat else 44

theorem wordsBuilt_of_kexp {p : Position} (h : p.PH = .kexp) : wordsBuilt p = p.KI.toNat := if_pos h

theorem wordsBuilt_of_ne_kexp {p : Position} (h : p.PH ≠ .kexp) : wordsBuilt p = 44 := if_neg h

/-- The operation of a position builds the schedule on to the next position. -/
theorem PositionCase.builds {p q : Position} {i : Instr} {s u : State} (hc : PositionCase p i q)
    (hu : exec i s = .next u) (hW : BuiltBelow s.KEYR s.W (wordsBuilt p)) :
    BuiltBelow s.KEYR u.W (wordsBuilt q) := by
  have kept (hp : p.PH ≠ .kexp) (hq : q.PH ≠ .kexp) : BuiltBelow s.KEYR u.W (wordsBuilt q) := by
    rw [exec_operation_W (hc.ne_ksw hp) hc.ne_command.1 hc.ne_command.2 hu]
    rwa [wordsBuilt_of_ne_kexp hp, ← wordsBuilt_of_ne_kexp hq] at hW
  cases hc with
  | ksw i h =>
    obtain rfl := Host.Outcome.next.inj ((execKsw_eq (by omega) s).symm.trans hu)
    have next : wordsBuilt (Position.kexp (i + 1)) = i.toNat + 1 :=
      BitVec.toNat_add_of_lt (show i.toNat + 1 < 64 by omega)
    rw [next]
    exact BuiltBelow.step (i := ⟨i.toNat, by omega⟩) hW
  | lastKsw =>
    obtain rfl := Host.Outcome.next.inj hu
    exact BuiltBelow.step (i := 43) hW
  | lds | sub | shr | lastShr | mix | ark | lastArk | stc => exact kept nofun nofun

/-- An operation other than STC leaves `CT` (20_memory.md R36). -/
theorem exec_operation_CT {i : Instr} {s u : State} (hstc : i ≠ .stc) (hstart : i ≠ .start) (hreset : i ≠ .reset)
    (hu : exec i s = .next u) : u.CT = s.CT := by
  cases i with
  | ksw n =>
    by_cases hn : n.toNat < 44
    · obtain rfl := Host.Outcome.next.inj ((execKsw_eq hn s).symm.trans hu)
      exact State.writeWord_CT s _ _ _
    · cases (execKsw_refused (Nat.not_lt.mp hn) s).symm.trans hu
  | ark r =>
    obtain ⟨-, rfl⟩ := execArk_eq_next hu
    exact State.writeS_CT s _ _
  | lds | sub | shr | mix =>
    obtain rfl := Host.Outcome.next.inj hu
    exact State.writeS_CT s _ _
  | stc => exact absurd rfl hstc
  | start => exact absurd rfl hstart
  | reset => exact absurd rfl hreset

end Sys2Proof.Machine

/-! Every step keeps the run invariant, by what a step can do, and the result of a run (44_sequencer.md R111, R112). -/

namespace Sys2Proof.Machine

theorem State.RunInvariant.of_sameRegisters {s t : State} (h : s.RunInvariant) (same : s.SameRegisters t) :
    t.RunInvariant := by
  obtain ⟨S, W, KEYR, PTR, CT, pc, ERR, ev, inputs⟩ := t
  obtain ⟨rfl, rfl, rfl, rfl, rfl, rfl, rfl⟩ := same
  exact ⟨h.canonical, h.zero_when_idle, h.schedule_prefix, h.schedule_complete, h.state_tracks, h.ct_zero, h.result⟩

theorem runInvariant_reset : State.reset.RunInvariant where
  canonical := ⟨rfl, by decide⟩
  zero_when_idle _ := ⟨rfl, rfl, rfl, rfl, rfl⟩
  schedule_prefix := nofun
  schedule_complete := by decide
  state_tracks := rfl
  ct_zero _ := rfl
  result := nofun

/-- An accepted START leads to the invariant from any state. -/
theorem runInvariant_acceptStart (s : State) : s.acceptStart.RunInvariant := by
  by_cases hlen : s.input.KEYLEN = 16
  · rw [acceptStart_of_length s hlen]
    exact
      { canonical := ⟨rfl, nofun, nofun⟩
        zero_when_idle := fun h => by simp [Position.kexp] at h
        schedule_prefix := fun _ => builtBelow_zero _
        schedule_complete := fun h => by simp [Position.kexp] at h
        state_tracks := rfl
        ct_zero := fun _ => rfl
        result := nofun }
  · rw [acceptStart_of_bad_length s hlen]
    exact
      { canonical := ⟨rfl, fun _ => rfl, fun _ => rfl⟩
        zero_when_idle := fun _ => ⟨rfl, rfl, rfl, rfl, rfl⟩
        schedule_prefix := nofun
        schedule_complete := fun h => by simp [Position.error] at h
        state_tracks := rfl
        ct_zero := fun _ => rfl
        result := nofun }

theorem State.RunInvariant.schedule_of_busy {s : State} (h : s.RunInvariant) (busy : s.pc.PH.isBusy = true)
    (built : s.pc.PH ≠ .kexp) : s.W = expand s.KEYR := by
  rcases s.pc.PH.isBusy_iff.mp busy with hp | hp | hp | hp
  · exact absurd hp built
  · exact h.schedule_complete (.inl hp)
  · exact h.schedule_complete (.inr (.inl hp))
  · exact h.schedule_complete (.inr (.inr (.inl hp)))

theorem State.RunInvariant.builtBelow {s : State} (h : s.RunInvariant) (busy : s.pc.PH.isBusy = true) :
    BuiltBelow s.KEYR s.W (wordsBuilt s.pc) := by
  unfold wordsBuilt
  split_ifs with kexp
  · exact h.schedule_prefix kexp
  · rw [h.schedule_of_busy busy kexp]
    exact fun i => (if_pos i.isLt).symm

/-- The position after a busy step is neither IDLE nor ERROR, and DONE after STC only (44_sequencer.md R105). -/
theorem PositionCase.next_phase {p q : Position} {i : Instr} (h : PositionCase p i q) :
    q.PH ≠ .idle ∧ q.PH ≠ .error ∧ (q.PH = .done → p = Position.store ∧ i = .stc) := by
  cases h <;> simp [Position.kexp, Position.load, Position.round, Position.store, Position.done]

theorem isReachable_runPosition {n : Nat} (h : n < 87) : (runPosition n).isReachable = true := by
  rcases Nat.lt_succ_iff_lt_or_eq.mp h with busy | rfl
  · exact Position.isReachable_iff.mpr (.inr (.inr (.inr ⟨n, busy, rfl⟩)))
  · rfl

theorem PositionCase.next_isReachable {p q : Position} {i : Instr} (h : PositionCase p i q) : q.isReachable = true := by
  obtain ⟨hlt, -, hq, -⟩ := h.at_index
  rw [hq]
  exact isReachable_runPosition (Nat.succ_lt_succ hlt)

/-- The operation of a busy position, with the move to the next one, keeps the invariant. -/
theorem State.RunInvariant.operation {s u : State} {i : Instr} {q : Position} (h : s.RunInvariant)
    (hc : PositionCase s.pc i q) (hu : exec i s = .next u) : (u.setPc q).RunInvariant := by
  obtain ⟨hstart, hreset⟩ := hc.ne_command
  obtain ⟨hkey, hpt, herr, -⟩ := exec_operation_frame hstart hreset hu
  obtain ⟨notIdle, notError, onlyStc⟩ := hc.next_phase
  obtain ⟨-, errMatches⟩ := h.canonical
  have busy := hc.isBusy
  have notErrorBefore : s.pc.PH ≠ .error := fun hp => by simp [hp, Phase.isBusy] at busy
  have notDoneBefore : s.pc.PH ≠ .done := fun hp => by simp [hp, Phase.isBusy] at busy
  have noErr : s.ERR ≠ .invalidKeyLength := mt errMatches.mp notErrorBefore
  have built : BuiltBelow u.KEYR u.W (wordsBuilt q) := hkey ▸ hc.builds hu (h.builtBelow busy)
  have tracks : u.S = stateAt (expand u.KEYR) u.PTR q :=
    hkey ▸ hpt ▸ hc.tracks hu (h.schedule_of_busy busy) h.state_tracks
  have builtTo (e : q.PH = .kexp) : BuiltBelow u.KEYR u.W q.KI.toNat := wordsBuilt_of_kexp e ▸ built
  have complete (e : q.PH ≠ .kexp) : u.W = expand u.KEYR := BuiltBelow.complete (wordsBuilt_of_ne_kexp e ▸ built)
  exact
    { canonical := ⟨hc.next_isReachable, fun e => absurd (herr ▸ e) noErr, fun e => absurd e notError⟩
      zero_when_idle := fun e => absurd e (not_or.mpr ⟨notIdle, notError⟩)
      schedule_prefix := builtTo
      schedule_complete := fun e => complete fun kexp => by
        rcases e with e | e | e | e <;> cases kexp.symm.trans e
      state_tracks := tracks
      ct_zero := fun notDone => by
        have other : i ≠ .stc := by
          rintro rfl
          exact notDone (congrArg Position.PH hc.eq_done)
        exact (exec_operation_CT other hstart hreset hu).trans (h.ct_zero notDoneBefore)
      result := fun done => by
        obtain ⟨hp, rfl⟩ := onlyStc done
        obtain rfl := Host.Outcome.next.inj hu
        have value : s.S = stateAt (expand s.KEYR) s.PTR Position.store := hp ▸ h.state_tracks
        exact ⟨value.trans (encrypt_eq_lastRound s.KEYR s.PTR).symm, rfl⟩ }

/-- Every step keeps the run invariant. -/
theorem State.RunInvariant.step {s t : State} (h : s.RunInvariant) (ht : Machine.step s = .next t) :
    t.RunInvariant := by
  rcases step_cases ht with ⟨-, rfl⟩ | ⟨-, -, -, rfl⟩ | ⟨-, -, -, rfl⟩ | ⟨-, -, _, i, q, u, rfl, hc, hu, rfl⟩
  · exact runInvariant_reset.of_sameRegisters ⟨rfl, rfl, rfl, rfl, rfl, rfl, rfl⟩
  · exact (runInvariant_acceptStart s).of_sameRegisters ⟨rfl, rfl, rfl, rfl, rfl, rfl, rfl⟩
  · exact h.of_sameRegisters ⟨rfl, rfl, rfl, rfl, rfl, rfl, rfl⟩
  · exact (h.operation hc hu).of_sameRegisters ⟨rfl, rfl, rfl, rfl, rfl, rfl, rfl⟩

/-- In DONE the invariant says what the run has computed (44_sequencer.md R111). -/
theorem State.RunInvariant.result_of_done {s : State} (h : s.RunInvariant) (hpc : s.pc = Position.done) :
    s.CT = encrypt s.KEYR s.PTR ∧ s.W = expand s.KEYR ∧ s.S = s.CT ∧ s.ERR = .none := by
  have done : s.pc.PH = .done := congrArg Position.PH hpc
  obtain ⟨-, errMatches⟩ := h.canonical
  obtain ⟨ciphertext, same⟩ := h.result done
  refine ⟨ciphertext, h.schedule_complete (.inr (.inr (.inr done))), same, ?_⟩
  cases herr : s.ERR with
  | none => rfl
  | invalidKeyLength => cases (errMatches.mp herr).symm.trans done

/-- A run that starts ends in DONE after 87 steps, in the run invariant and with the sampled key and plaintext. -/
theorem run_to_done {s : State} (hs : s.Starting) (hr : ∀ k ≤ 86, (s.inputOf k).RST = false) :
    ∃ t, run 87 s = .next t ∧ t.RunInvariant ∧ t.pc = Position.done ∧ t.KEYR = s.input.KEY ∧ t.PTR = s.input.PT := by
  obtain ⟨t, ht, hpc, hkey, hpt⟩ := run_at_runPosition hs le_rfl hr
  obtain ⟨hw, hr0, hstart, -⟩ := hs
  obtain ⟨u, hu, hut⟩ := run_succ_eq_next ht
  obtain rfl := Host.Outcome.next.inj ((step_of_start hw hr0 hstart).symm.trans hu)
  have begun := (runInvariant_acceptStart s).of_sameRegisters (t := s.acceptStart.popInputs)
    ⟨rfl, rfl, rfl, rfl, rfl, rfl, rfl⟩
  exact ⟨t, ht, run_keeps (fun _ _ h => h.step) begun hut, hpc, hkey, hpt⟩

/-- Settles O20: the run invariant at DONE, kept by the stutter after it; the wrong length leads to ERROR. -/
theorem runComputesTheCiphertext : Obligations.RunComputesTheCiphertext := by
  refine ⟨fun s n hs hn hr quiet => ?result, fun s hw hr hs hlen => ⟨_, step_of_start hw hr hs, ?rejected⟩⟩
  case result =>
    obtain ⟨m, rfl⟩ := Nat.exists_eq_add_of_le hn
    obtain ⟨d, hd, inv, hpc, hkey, hpt⟩ := run_to_done hs fun k hk => hr k (hk.trans hn)
    have waiting : d.pc.isWaiting = true := by rw [hpc]; rfl
    obtain ⟨t, ht, same, -⟩ := run_stutter (n := m) waiting fun k hk => by
      rw [run_inputOf hd]
      exact ⟨hr (87 + k) (by omega), quiet (87 + k) (by omega) (by omega)⟩
    have total : run (86 + m + 1) s = .next t := by rw [Nat.add_right_comm, run_add hd, ht]
    have kept := inv.of_sameRegisters same
    obtain ⟨-, -, hkey', hpt', -, hpc', -⟩ := same
    have done : t.pc = Position.done := hpc'.trans hpc
    obtain ⟨ciphertext, schedule, linear, noErr⟩ := kept.result_of_done done
    rw [hkey'.trans hkey] at ciphertext schedule
    rw [hpt'.trans hpt] at ciphertext
    exact ⟨t, total, hkey'.trans hkey, hpt'.trans hpt, ciphertext, schedule, linear, State.DONE_of_pc done,
      congrArg (fun p => p.PH.isBusy) done, noErr⟩
  case rejected =>
    rw [acceptStart_of_bad_length s hlen]
    exact ⟨rfl, rfl⟩

end Sys2Proof.Machine

/-! The one exception (60_exceptions.md R130 to R137): the wrong length at an accepted START takes it, ERROR is left by
START or reset, and an operation cannot raise it. Each is a step by its cases (44_sequencer.md R106). -/

namespace Sys2Proof.Machine

theorem step_of_reset {s : State} (hr : s.input.RST = true) :
    step s = .next { State.reset with inputs := s.inputs.tail } := by
  simp [step, State.choice, hr, exec_reset, State.popInputs]

/-- A START accepted with a wrong length raises the exception (60_exceptions.md R131). -/
theorem step_of_bad_length {s : State} (hw : s.pc.isWaiting = true) (hr : s.input.RST = false)
    (hs : s.input.START = true) (hlen : s.input.KEYLEN ≠ 16) :
    step s = .next s.clearRun.raiseInvalidKeyLength.popInputs := by
  rw [step_of_start hw hr hs, acceptStart_of_bad_length s hlen]

/-- A START accepted with the right length begins a run (44_sequencer.md R101). -/
theorem step_of_length {s : State} (hw : s.pc.isWaiting = true) (hr : s.input.RST = false)
    (hs : s.input.START = true) (hlen : s.input.KEYLEN = 16) :
    step s = .next (s.clearRun.beginRun s.input.KEY s.input.PT).popInputs := by
  rw [step_of_start hw hr hs, acceptStart_of_length s hlen]

theorem length_ne_of_acceptStart_ERR {s : State} (h : s.acceptStart.ERR = .invalidKeyLength) : s.input.KEYLEN ≠ 16 := by
  intro hlen
  rw [acceptStart_of_length s hlen] at h
  cases h

/-- A step that makes `ERR = 1` accepts a START with a wrong length: reset and a run's begin clear `ERR`, and the stutter
and the operations leave it (60_exceptions.md R131, R137). -/
theorem wrong_length_of_step_raises {s t : State} (ht : step s = .next t) (raised : t.ERR = .invalidKeyLength)
    (before : s.ERR ≠ .invalidKeyLength) :
    s.pc.isWaiting = true ∧ s.input.RST = false ∧ s.input.START = true ∧ s.input.KEYLEN ≠ 16 := by
  rcases step_cases ht with ⟨-, rfl⟩ | ⟨hr, hw, hs, rfl⟩ | ⟨-, -, -, rfl⟩ | ⟨-, -, _, i, q, u, -, hc, hu, rfl⟩
  · cases raised
  · exact ⟨hw, hr, hs, length_ne_of_acceptStart_ERR raised⟩
  · exact absurd raised before
  · obtain ⟨hstart, hreset⟩ := hc.ne_command
    obtain ⟨-, -, kept, -, -⟩ := exec_operation_frame hstart hreset hu
    exact absurd (kept.symm.trans raised) before

/-- Settles O37: the state that an accepted START with a wrong length leads to, and no other step raises. -/
theorem invalidKeyLengthIsTaken : Obligations.InvalidKeyLengthIsTaken :=
  ⟨fun _ hw hr hs hlen => ⟨_, step_of_bad_length hw hr hs hlen,
      rfl, rfl, rfl, rfl, rfl, rfl, rfl, rfl, rfl, rfl, rfl, rfl, rfl⟩,
    fun _ _ => wrong_length_of_step_raises⟩

/-- Settles O38: ERROR is a waiting position, and its step is reset, a START by its length, or the stutter. -/
theorem errorIsLeftOnlyByStartOrReset : Obligations.ErrorIsLeftOnlyByStartOrReset := by
  intro s hpc
  have waiting : s.pc.isWaiting = true := by rw [hpc]; rfl
  cases hr : s.input.RST with
  | true => exact ⟨_, step_of_reset hr, fun _ => ⟨rfl, rfl⟩, nofun, nofun, nofun⟩
  | false =>
    cases hs : s.input.START with
    | false =>
      exact ⟨_, step_of_stutter waiting hr hs, nofun, nofun, nofun, fun _ _ => ⟨rfl, rfl, rfl, rfl, rfl, rfl, rfl⟩⟩
    | true =>
      by_cases hlen : s.input.KEYLEN = 16
      · exact ⟨_, step_of_length waiting hr hs hlen, nofun, fun _ _ _ => ⟨rfl, rfl, rfl, rfl, rfl, rfl, rfl⟩,
          fun _ _ wrong => absurd hlen wrong, nofun⟩
      · exact ⟨_, step_of_bad_length waiting hr hs hlen, nofun, fun _ _ right => absurd right hlen,
          fun _ _ _ => ⟨rfl, rfl⟩, nofun⟩

/-- A legal operation answers a next state (60_exceptions.md R137). -/
theorem exec_operation_next {i : Instr} (s : State) (wf : i.WellFormed = true) (hstart : i ≠ .start)
    (hreset : i ≠ .reset) : ∃ t, exec i s = .next t := by
  cases i with
  | ksw n => exact ⟨_, execKsw_eq (of_decide_eq_true wf) s⟩
  | ark r => exact ⟨_, execArk_eq (of_decide_eq_true wf) s⟩
  | lds | sub | shr | mix | stc => exact ⟨_, rfl⟩
  | start => exact absurd rfl hstart
  | reset => exact absurd rfl hreset

/-- Settles O36: a legal operation answers a next state in its frame, which holds `ERR` and the position; the step moves on
to a position that is not ERROR. -/
theorem dataOperationsCannotFail : Obligations.DataOperationsCannotFail := by
  refine ⟨fun i s wf hstart hreset => ?operation, fun s busy hr => ?step⟩
  case operation =>
    obtain ⟨t, ht⟩ := exec_operation_next s wf hstart hreset
    obtain ⟨-, -, err, hpc, -⟩ := exec_operation_frame hstart hreset ht
    exact ⟨t, ht, err, congrArg ErrorCode.code err, fun h => hpc ▸ h⟩
  case step =>
    obtain ⟨w, hw⟩ := State.exists_opAt_of_isBusyReachable busy
    obtain ⟨_, i, q, u, -, hc, hq, -, hu, hs⟩ := step_operation hr hw
    obtain ⟨hstart, hreset⟩ := hc.ne_command
    obtain ⟨-, -, err, -, -⟩ := exec_operation_frame hstart hreset hu
    exact ⟨_, hs, err, decide_eq_false (nextPc_ne_error hq)⟩

end Sys2Proof.Machine

/-! Reset and the request in time (70_reset_and_hazards.md R150 to R160). An instruction but START takes the ports along
unread, so a step that does not accept START sees of the ports only what makes its choice; an accepted START builds its
state from the ports alone. -/

namespace Sys2Proof.Machine

theorem State.isWaiting_of_isBusyReachable {s : State} (h : s.isBusyReachable = true) : s.pc.isWaiting = false := by
  obtain ⟨_, hw⟩ := State.exists_opAt_of_isBusyReachable h
  exact isWaiting_of_opAt hw

/-- Held for at least one step, reset keeps the block in the reset state (70_reset_and_hazards.md R151). -/
theorem run_of_reset {n : Nat} {s : State} (hn : 1 ≤ n) (held : ∀ k < n, (s.inputOf k).RST = true) :
    run n s = .next { State.reset with inputs := s.inputs.drop n } := by
  induction n, hn using Nat.le_induction with
  | base =>
    rw [run_snoc (run_zero s), step_of_reset (s.inputOf_zero ▸ held 0 one_pos), List.drop_one]
  | succ n _ ih =>
    have before := ih fun k hk => held k (Nat.lt_succ_of_lt hk)
    have reset := held n n.lt_succ_self
    rw [← run_input before] at reset
    rw [run_snoc before, step_of_reset reset, List.tail_drop]

/-- Settles O12: the step by its first case, the run by induction, and a busy step without reset goes to `nextPc`. -/
theorem resetOverridesEverything : Obligations.ResetOverridesEverything := by
  refine ⟨fun _ => step_of_reset, fun _ _ => run_of_reset, fun s t busy ht other => ?reset⟩
  by_contra noReset
  obtain ⟨w, hw⟩ := State.exists_opAt_of_isBusyReachable busy
  obtain ⟨_, _, q, u, rfl, -, hq, -, -, hs⟩ := step_operation (Bool.eq_false_of_not_eq_true noReset) hw
  obtain rfl := Host.Outcome.next.inj (hs.symm.trans ht)
  exact other hq

/-- Every instruction but START takes the ports along unread (44_sequencer.md R106). -/
theorem exec_withInput {i : Instr} (s : State) (j : Inputs) (h : i ≠ .start) :
    exec i (s.withInput j) = onNext (exec i s) fun t => t.withInput j := by
  cases i with
  | ksw | ark =>
    simp only [exec, execKsw, execArk]
    split <;> rfl
  | start => exact absurd rfl h
  | lds | sub | shr | mix | stc | reset => rfl

/-- A step that does not perform START reads the ports only to make its choice (44_sequencer.md R106). -/
theorem step_withInput {s : State} {j : Inputs} (same : (s.withInput j).choice = s.choice)
    (other : s.choice ≠ .command .start) : step (s.withInput j) = step s := by
  unfold step
  rw [same]
  cases hc : s.choice with
  | command i =>
    have notStart : i ≠ .start := by
      rintro rfl
      exact other hc
    simp only [exec_withInput s j notStart, onNext_onNext, State.withInput_popInputs]
  | operation w p =>
    cases hd : decodeOpw w with
    | rejected => simp only [decode, hd]
    | instr i =>
      have notStart : i ≠ .start := by
        rintro rfl
        exact decodeOpw_ne_start w hd
      have moved (t : State) : ((t.withInput j).setPc p).popInputs = (t.setPc p).popInputs := rfl
      simp only [decode, hd, exec_withInput s j notStart, onNext_onNext, moved]
  | stutter => rfl
  | unreachable => rfl

/-- Without an accepted request the choice is not START. -/
theorem State.choice_ne_start {s : State} (h : s.input.RST = true ∨ s.input.START = false ∨ s.pc.isWaiting = false) :
    s.choice ≠ .command .start := by
  intro hc
  obtain ⟨waiting, noReset, start⟩ := State.started_of_choice hc
  simp [waiting, noReset, start] at h

/-- At a position that is not waiting, `RST` is the only port that the choice depends on (60_exceptions.md R136). -/
theorem State.choice_withInput {s : State} {j : Inputs} (hw : s.pc.isWaiting = false) (hr : j.RST = s.input.RST) :
    (s.withInput j).choice = s.choice := by
  simp [State.choice, hw, hr]

/-- Settles O13: a busy position is not waiting, so the ports without `RST` neither change the choice nor are read. -/
theorem portsIgnoredWhileBusy : Obligations.PortsIgnoredWhileBusy := by
  intro s i j busy hi hj
  have notWaiting : (s.withInput i).pc.isWaiting = false := State.isWaiting_of_isBusyReachable busy
  exact (step_withInput (s := s.withInput i) (State.choice_withInput notWaiting (hj.trans hi.symm))
    (State.choice_ne_start (.inr (.inr notWaiting)))).symm

/-- Settles O14: the choice does not read `KEY`, `PT` and `KEYLEN`, and only START does. -/
theorem keyPortsReadOnlyByStart : Obligations.KeyPortsReadOnlyByStart :=
  fun _ _ _ _ notAccepted => step_withInput rfl (State.choice_ne_start notAccepted)

theorem State.input_congr {s t : State} (h : s.inputs = t.inputs) : s.input = t.input :=
  congrArg (·.headD Inputs.quiet) h

/-- The state after an accepted START is made of the ports alone (70_reset_and_hazards.md R154). -/
theorem acceptStart_eq_of_inputs {s t : State} (h : s.inputs = t.inputs) : s.acceptStart = t.acceptStart := by
  have ports := State.input_congr h
  by_cases length : s.input.KEYLEN = 16
  · rw [acceptStart_of_length s length, acceptStart_of_length t (ports ▸ length)]
    simp only [State.clearRun, State.beginRun, ports, h]
  · rw [acceptStart_of_bad_length s length, acceptStart_of_bad_length t (ports ▸ length)]
    simp only [State.clearRun, State.raiseInvalidKeyLength, h]

/-- An accepted START clears `S`, `W` and `CT` whatever the length (44_sequencer.md R101). -/
theorem acceptStart_clears (s : State) :
    s.acceptStart.S = zeroBlock ∧ s.acceptStart.W = zeroSchedule ∧ s.acceptStart.CT = zeroBlock := by
  by_cases length : s.input.KEYLEN = 16
  · rw [acceptStart_of_length s length]
    exact ⟨rfl, rfl, rfl⟩
  · rw [acceptStart_of_bad_length s length]
    exact ⟨rfl, rfl, rfl⟩

/-- Settles O22: both states accept START, which builds one state from the ports they share. -/
theorem nothingPersistsAcrossRuns : Obligations.NothingPersistsAcrossRuns := by
  intro s t hs ht same hr hstart
  have ports := State.input_congr same
  refine ⟨_, step_of_start hs hr hstart, ?_, acceptStart_clears s⟩
  rw [ports] at hr hstart
  rw [step_of_start ht hr hstart, acceptStart_eq_of_inputs same]

/-- The state after an accepted START is not in DONE: it is in KEXP or ERROR by the length (44_sequencer.md R101). -/
theorem acceptStart_DONE (s : State) : s.acceptStart.DONE = false := by
  by_cases length : s.input.KEYLEN = 16
  · rw [acceptStart_of_length s length]
    rfl
  · rw [acceptStart_of_bad_length s length]
    rfl

/-- Requests of a wrong length enter ERROR in every step from a waiting position on (70_reset_and_hazards.md R160). -/
theorem run_of_bad_length {n : Nat} {s : State} (hw : s.pc.isWaiting = true)
    (held : ∀ k < n, (s.inputOf k).RST = false ∧ (s.inputOf k).START = true ∧ (s.inputOf k).KEYLEN ≠ 16) :
    ∃ t, run n s = .next t ∧ t.pc.isWaiting = true ∧
      (0 < n → t.pc = Position.error ∧ t.ERR = .invalidKeyLength) := by
  induction n with
  | zero => exact ⟨s, run_zero s, hw, nofun⟩
  | succ n ih =>
    obtain ⟨t, ht, waiting, -⟩ := ih fun k hk => held k (Nat.lt_succ_of_lt hk)
    obtain ⟨noReset, start, length⟩ := held n n.lt_succ_self
    rw [← run_input ht] at noReset start length
    exact ⟨_, (run_snoc ht).trans (step_of_bad_length waiting noReset start length), rfl, fun _ => ⟨rfl, rfl⟩⟩

/-- Settles O23: step 87 finds DONE, a waiting position, and accepts the START of its own ports; before it the run was
busy. The wrong length is an induction on the number of steps. -/
theorem heldStartRunsBackToBack : Obligations.HeldStartRunsBackToBack := by
  refine ⟨fun s hs held => ?right, fun s n hw hn held => ?wrong⟩
  case right =>
    have noReset : ∀ k ≤ 86, (s.inputOf k).RST = false := fun k hk => (held k (Nat.le_succ_of_le hk)).1
    obtain ⟨before, -⟩ := runTerminatesAfterExactly86Steps s hs noReset
    obtain ⟨t, ht, hpc, -⟩ := run_at_runPosition hs le_rfl noReset
    have waiting : t.pc.isWaiting = true := by rw [hpc]; rfl
    obtain ⟨hr, hstart⟩ := held 87 le_rfl
    rw [← run_input ht] at hr hstart ⊢
    refine ⟨t, _, ht, State.DONE_of_pc hpc, (run_snoc ht).trans (step_of_start waiting hr hstart),
      acceptStart_DONE t, fun length => ?_, fun length => ?_, fun n hn => ?_⟩
    · rw [acceptStart_of_length t length]
      exact ⟨rfl, rfl, rfl, rfl⟩
    · rw [acceptStart_of_bad_length t length]
      rfl
    · obtain ⟨v, hv, -, notDone⟩ := before n hn
      exact ⟨v, hv, notDone⟩
  case wrong =>
    obtain ⟨t, ht, -, entered⟩ := run_of_bad_length hw held
    exact ⟨t, ht, entered hn⟩

end Sys2Proof.Machine

/-! The decoder of every code, pins included (30_encoding.md R46, R56): a host command is the only instruction of its
pin, at level 1, and so a code decodes to an instruction exactly when it is its encoding. -/

namespace Sys2Proof

theorem encode_eq_startPin_iff {i : Instr} {b : BitVec 1} : encode i = .startPin b ↔ i = .start ∧ b = 1 := by
  cases i <;> simp [encode, eq_comm]

theorem encode_eq_rstPin_iff {i : Instr} {b : BitVec 1} : encode i = .rstPin b ↔ i = .reset ∧ b = 1 := by
  cases i <;> simp [encode, eq_comm]

theorem decode_startPin_eq_instr_iff {i : Instr} {b : BitVec 1} :
    decode (.startPin b) = .instr i ↔ i = .start ∧ b = 1 := by
  by_cases h : b = 1#1 <;> simp [decode, h, eq_comm]

theorem decode_rstPin_eq_instr_iff {i : Instr} {b : BitVec 1} :
    decode (.rstPin b) = .instr i ↔ i = .reset ∧ b = 1 := by
  by_cases h : b = 1#1 <;> simp [decode, h, eq_comm]

/-- The decoder answers exactly the well-formed instructions, each from its own code (30_encoding.md R47, R56). -/
theorem decode_eq_instr_iff {c : Code} {i : Instr} : decode c = .instr i ↔ i.WellFormed = true ∧ encode i = c := by
  cases c with
  | opw w => exact decodeOpw_eq_instr_iff
  | startPin b =>
    rw [decode_startPin_eq_instr_iff, encode_eq_startPin_iff]
    exact ⟨fun h => ⟨h.1 ▸ rfl, h⟩, And.right⟩
  | rstPin b =>
    rw [decode_rstPin_eq_instr_iff, encode_eq_rstPin_iff]
    exact ⟨fun h => ⟨h.1 ▸ rfl, h⟩, And.right⟩

/-- Settles O1: a well-formed instruction is what its own code decodes to. -/
theorem decodeOfEncodeIsIdentity : Obligations.DecodeOfEncodeIsIdentity :=
  fun _ wf => decode_eq_instr_iff.mpr ⟨wf, rfl⟩

/-- Settles O2: a code decodes to no instruction but a well-formed one whose code it is. -/
theorem decodedCodeIsTheEncoding : Obligations.DecodedCodeIsTheEncoding :=
  fun _ _ h => (decode_eq_instr_iff.mp h).symm

/-- Settles O6: the decoder is evaluated on the sixteen codes, which are written out bit by bit. -/
theorem specEncodingsDecode : Obligations.SpecEncodingsDecode := by
  unfold Obligations.SpecEncodingsDecode
  decide

end Sys2Proof

/-! What one step does (44_sequencer.md R106): the choice as an equation of `step` for each kind of position, the step of
a state made to present an instruction, and the totality of the step on the 89 positions. -/

namespace Sys2Proof.Machine

theorem step_of_operation {s : State} {w : BitVec 10} {p : Position} {i : Instr} (hr : s.input.RST = false)
    (hw : opAt s.pc = some w) (hp : nextPc s.pc = some p) (hd : decode (.opw w) = .instr i) :
    step s = onNext (exec i s) fun t => (t.setPc p).popInputs := by
  have choice : s.choice = .operation w p := by simp [State.choice, hr, isWaiting_of_opAt hw, hw, hp]
  simp [step, choice, hd]

theorem step_of_choice_command {s : State} {i : Instr} (h : s.choice = .command i) :
    step s = onNext (exec i s) State.popInputs := by
  simp [step, h]

/-- Settles O7: the choice is the operation of the position. -/
theorem stepRunsTheDecodedOperation : Obligations.StepRunsTheDecodedOperation :=
  fun _ _ _ _ hr hw hp hd _ => step_of_operation hr hw hp hd

/-- Settles O8: the choice is the host command, RST before START. -/
theorem stepRunsTheHostCommand : Obligations.StepRunsTheHostCommand :=
  ⟨fun s hr => step_of_choice_command (by simp [State.choice, hr]),
    fun s hr hw hs => step_of_choice_command (by simp [State.choice, hr, hw, hs])⟩

/-- The sequencer performs a legal operation at its position (44_sequencer.md R104). -/
theorem opAt_positionOf {i : Instr} (wf : i.WellFormed = true) (hstart : i ≠ .start) (hreset : i ≠ .reset) :
    ∃ w, opAt (positionOf i) = some w ∧ encode i = .opw w := by
  cases i with
  | ksw n => exact ⟨kswOpw n, opAt_kexp (of_decide_eq_true wf), encode_ksw n⟩
  | ark r =>
    have word : ∀ r : BitVec 6, r.toNat < 11 → opAt (Position.round (r.setWidth 4) .ark) = some (arkOpw r) := by decide
    exact ⟨arkOpw r, word r (of_decide_eq_true wf), encode_ark r⟩
  | lds | sub | shr | mix | stc => exact ⟨_, rfl, rfl⟩
  | start => exact absurd rfl hstart
  | reset => exact absurd rfl hreset

/-- A state that stands at the position of a legal operation, without reset, runs it in the next step. -/
theorem operation_runs_at_positionOf {i : Instr} {s : State} (wf : i.WellFormed = true) (hstart : i ≠ .start)
    (hreset : i ≠ .reset) (hpc : s.pc = positionOf i) (hr : s.input.RST = false) :
    ∃ t u, exec i s = .next t ∧ step s = .next u ∧
      u.S = t.S ∧ u.W = t.W ∧ u.KEYR = t.KEYR ∧ u.PTR = t.PTR ∧ u.CT = t.CT ∧ u.ERR = t.ERR ∧ u.ev = t.ev ∧
      u.pc = (nextPc (positionOf i)).getD t.pc := by
  obtain ⟨w, hw, he⟩ := opAt_positionOf wf hstart hreset
  rw [← hpc] at hw
  obtain ⟨_, j, q, t, rfl, -, hq, hd, ht, hs⟩ := step_operation hr hw
  obtain rfl : i = j := Decoded.instr.inj ((decodeOpw_of_encode wf he).symm.trans hd)
  refine ⟨t, _, ht, hs, rfl, rfl, rfl, rfl, rfl, rfl, rfl, ?_⟩
  rw [← hpc, hq]
  rfl

/-- Settles O9: an operation stands at its position, and the two commands are on their pins. -/
theorem presentedInstructionRunsNext : Obligations.PresentedInstructionRunsNext := by
  intro s i wf
  cases i with
  | ksw | lds | ark | sub | shr | mix | stc => exact operation_runs_at_positionOf wf nofun nofun rfl rfl
  | start =>
    have waiting : (s.presenting .start).pc.isWaiting = true := by
      change (if s.pc.isWaiting then s.pc else Position.idle).isWaiting = true
      split
      · assumption
      · rfl
    exact ⟨_, _, execStart_accepted _ rfl (Position.acceptsStart_of_isWaiting waiting),
      step_of_start waiting rfl rfl, rfl, rfl, rfl, rfl, rfl, rfl, rfl, rfl⟩
  | reset => exact ⟨_, _, exec_reset _, step_of_reset rfl, rfl, rfl, rfl, rfl, rfl, rfl, rfl, rfl⟩

theorem Position.isReachable_eq_false_iff {p : Position} :
    p.isReachable = false ↔ p.isWaiting = false ∧ opAt p = none := by
  simp [Position.isReachable]

/-- A step from a reachable position answers a next state (70_reset_and_hazards.md R161). -/
theorem step_of_isReachable {s : State} (h : s.pc.isReachable = true) : ∃ t, step s = .next t := by
  cases hr : s.input.RST with
  | true => exact ⟨_, step_of_reset hr⟩
  | false =>
    rcases Bool.or_eq_true_iff.mp h with waiting | busy
    · cases hs : s.input.START with
      | true => exact ⟨_, step_of_start waiting hr hs⟩
      | false => exact ⟨_, step_of_stutter waiting hr hs⟩
    · obtain ⟨w, hw⟩ := Option.isSome_iff_exists.mp busy
      obtain ⟨_, _, _, _, -, -, -, -, -, hs⟩ := step_operation hr hw
      exact ⟨_, hs⟩

/-- Settles O11: every word of a position is a case of the table; a reachable position waits or has a word, and one that
does neither leaves the step without a choice. -/
theorem stepIsTotalOnReachablePositions : Obligations.StepIsTotalOnReachablePositions := by
  refine ⟨fun p w hw => ?words, fun s => step_of_isReachable, fun s unreachable hr => ?refused⟩
  case words =>
    obtain ⟨i, -, -, -, hd, wf⟩ := opAt_cases hw
    exact ⟨i, hd, wf⟩
  case refused =>
    obtain ⟨notWaiting, noWord⟩ := Position.isReachable_eq_false_iff.mp unreachable
    simp [step, State.choice, hr, notWaiting, noWord]

end Sys2Proof.Machine

/-! What every step keeps (10_state.md R17, R18, R24, 70_reset_and_hazards.md R155): reset and an accepted START lead to
states of the run invariant, the stutter changes no register, and an operation moves to the next position. -/

namespace Sys2Proof.Machine

theorem State.Canonical.ERR_ne_of_isBusy {s : State} (h : s.Canonical) (busy : s.pc.PH.isBusy = true) :
    s.ERR ≠ .invalidKeyLength := by
  obtain ⟨-, errMatches⟩ := h
  exact fun e => by simp [errMatches.mp e, Phase.isBusy] at busy

/-- Settles O41: reset and START lead to canonical states, and an operation leaves `ERR`, which is 0 at a busy position,
and moves to a position of the table that is not ERROR. -/
theorem everyStepKeepsThePositionCanonical : Obligations.EveryStepKeepsThePositionCanonical := by
  intro s t canonical ht
  rcases step_cases ht with ⟨-, rfl⟩ | ⟨-, -, -, rfl⟩ | ⟨-, -, -, rfl⟩ | ⟨-, -, _, i, q, u, rfl, hc, hu, rfl⟩
  · exact runInvariant_reset.canonical
  · exact (runInvariant_acceptStart s).canonical
  · exact canonical
  · obtain ⟨hstart, hreset⟩ := hc.ne_command
    obtain ⟨-, -, kept, -, -⟩ := exec_operation_frame hstart hreset hu
    obtain ⟨-, notError, -⟩ := hc.next_phase
    have noErr : u.ERR ≠ .invalidKeyLength := kept ▸ canonical.ERR_ne_of_isBusy hc.isBusy
    exact ⟨hc.next_isReachable, fun e => absurd e noErr, fun e => absurd e notError⟩

/-- Settles O43: the invariant by what a step can do. -/
theorem everyStepKeepsTheRunInvariant : Obligations.EveryStepKeepsTheRunInvariant :=
  fun _ _ => State.RunInvariant.step

/-- Settles O44: the reset state meets the invariant clause by clause. -/
theorem resetMeetsTheRunInvariant : Obligations.ResetMeetsTheRunInvariant := runInvariant_reset

/-- Settles O42: reset and START clear `CT`, and only STC, which leads to DONE, writes it. -/
theorem everyStepKeepsCtZeroUnlessDone : Obligations.EveryStepKeepsCtZeroUnlessDone := by
  intro s t zero ht
  rcases step_cases ht with ⟨-, rfl⟩ | ⟨-, -, -, rfl⟩ | ⟨-, -, -, rfl⟩ | ⟨-, -, _, i, q, u, rfl, hc, hu, rfl⟩
  · exact runInvariant_reset.ct_zero
  · exact (runInvariant_acceptStart s).ct_zero
  · exact zero
  · intro notDone
    obtain ⟨hstart, hreset⟩ := hc.ne_command
    have other : i ≠ .stc := by
      rintro rfl
      exact notDone (congrArg Position.PH hc.eq_done)
    have notDoneBefore : s.pc.PH ≠ .done := fun hp => by simpa [hp, Phase.isBusy] using hc.isBusy
    exact (exec_operation_CT other hstart hreset hu).trans (zero notDoneBefore)

end Sys2Proof.Machine

/-! How event records fit together (30_encoding.md R51, 44_sequencer.md R108): the destination that a record shows before
is zero for KSW, LDS and STC under the run invariant, and is `S` for every operation that leads to or starts in ROUND. -/

namespace Sys2Proof.Machine

/-- A step at a busy position performs its operation and emits that operation's record (30_encoding.md R51). -/
theorem step_busy_record {s : State} (busy : s.isBusyReachable = true) (hr : s.input.RST = false) :
    ∃ w i q t, PositionCase s.pc i q ∧ decodeOpw w = .instr i ∧ step s = .next t ∧ t.pc = q ∧
      t.ev = some { opw := w, before := s.destination w, after := t.destination w } := by
  obtain ⟨w, hw⟩ := State.exists_opAt_of_isBusyReachable busy
  obtain ⟨_, i, q, u, rfl, hc, -, hd, hu, hs⟩ := step_operation hr hw
  exact ⟨w, i, q, _, hc, hd, hs, rfl, by simpa using exec_event hd hu⟩

/-- Before KSW its word is not yet built, before LDS `S` and before STC `CT` is zero (10_state.md R24). -/
theorem State.RunInvariant.destination_eq_zero {s : State} {w : BitVec 10} {i : Instr} {q : Position}
    (h : s.RunInvariant) (hc : PositionCase s.pc i q) (hd : decodeOpw w = .instr i)
    (hp : s.pc.PH = .kexp ∨ s.pc.PH = .load ∨ s.pc.PH = .store) : s.destination w = zeroBlock := by
  have tracks := h.state_tracks
  have unbuilt := h.schedule_prefix
  have unstored : s.pc.PH ≠ .done → s.CT = zeroBlock := h.ct_zero
  generalize hpc : s.pc = p at *
  cases hc with
  | ksw n hn =>
    have word : s.W[n.toNat] = zeroWord := (unbuilt rfl ⟨n.toNat, by omega⟩).trans (if_neg (lt_irrefl _))
    rw [State.destination_ksw s hd (by omega), word, padWord_zeroWord]
  | lastKsw =>
    have word : s.W[43] = zeroWord := unbuilt rfl 43
    exact (State.destination_ksw s hd (by decide)).trans ((congrArg padWord word).trans padWord_zeroWord)
  | lds => exact (State.destination_S s hd nofun nofun).trans tracks
  | stc => exact (State.destination_stc s hd).trans (unstored nofun)
  | sub | shr | lastShr | mix | ark | lastArk => simp [Position.round] at hp

/-- LDS and the operations of a round report `S`. -/
theorem PositionCase.reports_S {p q : Position} {i : Instr} (h : PositionCase p i q)
    (round : p.PH = .round ∨ q.PH = .round) : (∀ n, i ≠ .ksw n) ∧ i ≠ .stc := by
  cases h with
  | ksw | lastKsw | stc => simp [Position.kexp, Position.load, Position.store, Position.done] at round
  | lds | sub | shr | lastShr | mix | ark | lastArk => exact ⟨nofun, nofun⟩

/-- Settles O25: the first record begins with its destination, which is zero; of two records in a row both show `S`, the
first after its step and the second before the next. -/
theorem eventRecordsFitTogether : Obligations.EventRecordsFitTogether := by
  refine ⟨fun s t inv hr phase ht => ?zero, fun s t u e f hr hr' busy round ht hu he hf => ?chain⟩
  case zero =>
    have busy : s.isBusyReachable = true := by
      obtain ⟨reachable, -⟩ := inv.canonical
      rcases phase with h | h | h <;> simp [State.isBusyReachable, reachable, h, Phase.isBusy]
    obtain ⟨w, i, q, t', hc, hd, ht', -, record⟩ := step_busy_record busy hr
    obtain rfl := Host.Outcome.next.inj (ht.symm.trans ht')
    exact ⟨_, record, inv.destination_eq_zero hc hd phase⟩
  case chain =>
    obtain ⟨w, i, q, t', hc, hd, ht', rfl, record⟩ := step_busy_record busy hr
    obtain rfl := Host.Outcome.next.inj (ht.symm.trans ht')
    have busy' : t.isBusyReachable = true := by simp [State.isBusyReachable, hc.next_isReachable, round, Phase.isBusy]
    obtain ⟨w', j, q', u', hc', hd', hu', rfl, record'⟩ := step_busy_record busy' hr'
    obtain rfl := Host.Outcome.next.inj (hu.symm.trans hu')
    obtain ⟨notKsw, notStc⟩ := hc.reports_S (.inr round)
    obtain ⟨notKsw', notStc'⟩ := hc'.reports_S (.inl round)
    obtain rfl := Option.some.inj (he.symm.trans record)
    obtain rfl := Option.some.inj (hf.symm.trans record')
    exact (State.destination_S t hd' notKsw' notStc').trans (State.destination_S t hd notKsw notStc).symm

end Sys2Proof.Machine

/-! The frame of every instruction over the six index spaces (20_memory.md R36): a byte outside a write's destination
reads as before. -/

namespace Sys2Proof.Machine

theorem State.byteAt_writeS {a : Space} (s : State) (w : BitVec 10) (new : Block) (k : Nat) (h : a ≠ .S) :
    (s.writeS w new).byteAt a k = s.byteAt a k := by
  cases a with
  | S => exact absurd rfl h
  | W | KEYR | PTR | CT | SBOX => rfl

theorem State.byteAt_writeCT {a : Space} (s : State) (w : BitVec 10) (new : Block) (k : Nat) (h : a ≠ .CT) :
    (s.writeCT w new).byteAt a k = s.byteAt a k := by
  cases a with
  | CT => exact absurd rfl h
  | S | W | KEYR | PTR | SBOX => rfl

theorem scheduleByte_set (w : Schedule) (x : Word) {i k : Nat} (hi : i < 44) (h : k / 4 ≠ i) :
    scheduleByte (w.set i x) k = scheduleByte w k := by
  simp only [scheduleByte, Vector.getElem?_set_ne hi (Ne.symm h)]

theorem State.byteAt_writeWord {a : Space} (s : State) (w : BitVec 10) (i : Fin 44) (new : Word) {k : Nat}
    (h : a = .W → k / 4 ≠ i.val) : (s.writeWord w i new).byteAt a k = s.byteAt a k := by
  cases a with
  | W => exact scheduleByte_set s.W new i.isLt (h rfl)
  | S | KEYR | PTR | CT | SBOX => rfl

theorem acceptStart_inputs (s : State) : s.acceptStart.inputs = s.inputs := by
  unfold State.acceptStart
  split <;> rfl

theorem execStart_inputs {s t : State} (h : execStart s = .next t) : t.inputs = s.inputs := by
  unfold execStart at h
  split at h
  · exact Host.Outcome.next.inj h ▸ acceptStart_inputs s
  · exact Host.Outcome.next.inj h ▸ rfl

theorem exec_inputs {i : Instr} {s t : State} (h : exec i s = .next t) : t.inputs = s.inputs := by
  by_cases hstart : i = .start
  · subst hstart
    exact execStart_inputs h
  by_cases hreset : i = .reset
  · subst hreset
    exact Host.Outcome.next.inj h ▸ rfl
  obtain ⟨-, -, -, -, inputs⟩ := exec_operation_frame hstart hreset h
  exact inputs

/-- What a host command may not write is the S-box, which is no register (20_memory.md R36). -/
theorem State.byteAt_of_command {i : Instr} {a : Space} {k : Nat} (s t : State) (hi : i = .start ∨ i = .reset)
    (h : writesByte i a k = false) : t.byteAt a k = s.byteAt a k := by
  cases a with
  | SBOX => rfl
  | S | W | KEYR | PTR | CT => rcases hi with rfl | rfl <;> cases h

/-- The table of destinations of 20_memory.md R36. -/
theorem exec_byteAt {i : Instr} {s t : State} {a : Space} {k : Nat} (ht : exec i s = .next t)
    (h : writesByte i a k = false) : t.byteAt a k = s.byteAt a k := by
  cases i with
  | ksw n =>
    by_cases hn : n.toNat < 44
    · obtain rfl := Host.Outcome.next.inj ((execKsw_eq hn s).symm.trans ht)
      refine State.byteAt_writeWord s _ ⟨n.toNat, hn⟩ _ ?_
      rintro rfl
      exact of_decide_eq_false h
    · cases (execKsw_refused (Nat.not_lt.mp hn) s).symm.trans ht
  | ark r =>
    obtain ⟨-, rfl⟩ := execArk_eq_next ht
    refine State.byteAt_writeS s _ _ k ?_
    rintro rfl
    cases h
  | lds | sub | shr | mix =>
    obtain rfl := Host.Outcome.next.inj ht
    refine State.byteAt_writeS s _ _ k ?_
    rintro rfl
    cases h
  | stc =>
    obtain rfl := Host.Outcome.next.inj ht
    refine State.byteAt_writeCT s _ _ k ?_
    rintro rfl
    cases h
  | start => exact State.byteAt_of_command s t (.inl rfl) h
  | reset => exact State.byteAt_of_command s t (.inr rfl) h

/-- Settles O39: each instruction is one write, outside whose destination every byte reads as before. -/
theorem instructionsWriteOnlyTheirDestination : Obligations.InstructionsWriteOnlyTheirDestination := by
  refine fun i s t ht => ⟨fun _ _ => exec_byteAt ht, exec_inputs ht, fun hstart hreset => ?_⟩
  obtain ⟨-, -, err, hpc, -⟩ := exec_operation_frame hstart hreset ht
  exact ⟨hpc, err⟩

end Sys2Proof.Machine

/-! The field laws of the multiplier (40_gf_multiplier.md R61 to R67). The loop of GFMUL is additive in both operands and
lets XTIME out of the left one, and 1 generates every byte under XTIME and XOR; so a law holds if it holds at 1. -/

namespace Sys2Proof.Machine

/-- Terms that stand twice in a sum of bytes cancel. -/
theorem eq_of_eq_xor_twice {x y : Byte} (k : Byte) (h : x = y ^^^ k ^^^ k) : x = y := h.trans (xor_cancel_right y k)

theorem xtime_eq_shift_xor (b : Byte) : xtime b = b <<< 1 ^^^ if b.getLsbD 7 then Config.reductionByte else 0 := by
  unfold xtime
  split <;> simp

@[simp] theorem xtime_zero : xtime 0 = 0 := rfl

theorem xtime_xor (a b : Byte) : xtime (a ^^^ b) = xtime a ^^^ xtime b := by
  have carry : (if (a ^^^ b).getLsbD 7 then Config.reductionByte else 0) =
      (if a.getLsbD 7 then Config.reductionByte else 0) ^^^ if b.getLsbD 7 then Config.reductionByte else 0 := by
    rw [BitVec.getLsbD_xor]
    cases a.getLsbD 7 <;> cases b.getLsbD 7 <;> simp
  simp only [xtime_eq_shift_xor, carry, BitVec.shiftLeft_xor_distrib]
  ac_rfl

theorem xtimes_xor (a b : Byte) (i : Nat) : xtimes (a ^^^ b) i = xtimes a i ^^^ xtimes b i := by
  induction i with
  | zero => rfl
  | succ i ih => simp only [xtimes, ih, xtime_xor]

theorem xtimes_xtime (a : Byte) (i : Nat) : xtimes (xtime a) i = xtime (xtimes a i) := by
  rw [xtimes_eq_iterate, xtimes_eq_iterate, ← Function.iterate_succ_apply, Function.iterate_succ_apply']

theorem gfmul_xor_right (a b c : Byte) : gfmul a (b ^^^ c) = gfmul a b ^^^ gfmul a c := by
  have turn (x y : Byte) (i : Nat) :
      addSummand a b x i ^^^ addSummand a c y i = addSummand a (b ^^^ c) (x ^^^ y) i := by
    unfold addSummand
    rw [BitVec.getLsbD_xor]
    cases b.getLsbD i <;> cases c.getLsbD i <;> dsimp
    case true.true => exact eq_of_eq_xor_twice (xtimes a i) (by ac_rfl)
    all_goals ac_rfl
  simp only [gfmul_eq_foldl_addSummand]
  exact List.foldl_hom₂ _ (· ^^^ ·) _ _ _ 0 0 turn

theorem gfmul_xor_left (a b c : Byte) : gfmul (a ^^^ b) c = gfmul a c ^^^ gfmul b c := by
  have turn (x y : Byte) (i : Nat) :
      addSummand a c x i ^^^ addSummand b c y i = addSummand (a ^^^ b) c (x ^^^ y) i := by
    unfold addSummand
    split
    · rw [xtimes_xor]
      ac_rfl
    · rfl
  simp only [gfmul_eq_foldl_addSummand]
  exact List.foldl_hom₂ _ (· ^^^ ·) _ _ _ 0 0 turn

theorem gfmul_xtime_left (a b : Byte) : gfmul (xtime a) b = xtime (gfmul a b) := by
  have turn (x : Byte) (i : Nat) : addSummand (xtime a) b (xtime x) i = xtime (addSummand a b x i) := by
    unfold addSummand
    split
    · rw [xtimes_xtime, xtime_xor]
    · rfl
  have sum := List.foldl_hom xtime turn (init := 0) (l := [0, 1, 2, 3, 4, 5, 6, 7])
  rwa [xtime_zero, ← gfmul_eq_foldl_addSummand, ← gfmul_eq_foldl_addSummand] at sum

@[simp] theorem gfmul_one_left (b : Byte) : gfmul 1 b = b := by
  revert b
  decide

/-- Every byte is a sum of `XTIMES(1, i)`: the sum that GFMUL takes for `1 · a`. -/
theorem xtime_induction {P : Byte → Prop} (one : P 1) (times : ∀ a, P a → P (xtime a))
    (sum : ∀ a b, P a → P b → P (a ^^^ b)) (a : Byte) : P a := by
  have zero : P 0 := sum 1 1 one one
  have power (i : Nat) : P (xtimes 1 i) := by
    induction i with
    | zero => exact one
    | succ i ih => exact times _ ih
  rw [← gfmul_one_left a, gfmul_eq_foldl_addSummand]
  refine List.foldlRecOn _ _ zero fun acc h i _ => ?_
  unfold addSummand
  split
  · exact sum _ _ h (power i)
  · exact h

theorem gfmul_assoc (a b c : Byte) : gfmul (gfmul a b) c = gfmul a (gfmul b c) := by
  induction a using xtime_induction with
  | one => simp only [gfmul_one_left]
  | times a ih => simp only [gfmul_xtime_left, ih]
  | sum a a' ih ih' => simp only [gfmul_xor_left, ih, ih']

/-- The right operand lets XTIME out too, which is where the reduction enters: at `a = 1` both sides are `XTIME(b)`. -/
theorem gfmul_xtime_right (a b : Byte) : gfmul a (xtime b) = xtime (gfmul a b) := by
  induction a using xtime_induction with
  | one => simp only [gfmul_one_left]
  | times a ih => simp only [gfmul_xtime_left, ih]
  | sum a a' ih ih' => simp only [gfmul_xor_left, ih, ih', xtime_xor]

theorem gfmul_comm (a b : Byte) : gfmul a b = gfmul b a := by
  induction a using xtime_induction with
  | one => simp only [gfmul_one_left, gfmul_one]
  | times a ih => simp only [gfmul_xtime_left, gfmul_xtime_right, ih]
  | sum a a' ih ih' => simp only [gfmul_xor_left, gfmul_xor_right, ih, ih']

@[simp] theorem gfmul_zero_left (b : Byte) : gfmul 0 b = 0 := by rw [gfmul_comm, gfmul_zero]

theorem eq_of_gfmul_eq_one {a b c : Byte} (hb : gfmul a b = 1) (hc : gfmul a c = 1) : b = c :=
  calc b = gfmul b (gfmul a c) := by rw [hc, gfmul_one]
    _ = gfmul (gfmul a b) c := by rw [← gfmul_assoc, gfmul_comm b a]
    _ = c := by rw [hb, gfmul_one_left]

end Sys2Proof.Machine

/-! The S-box and the inverses (41_sbox.md R72). With the affine map of its construction undone the S-box is a table of
inverses; one product for each byte checks that, and both the inverses of the field and the laws of the S-box follow. The
products are the proof: that a byte has an inverse does not rest on where the table comes from (log entry 6). -/

namespace Sys2Proof.Machine

/-- The affine map of the S-box construction (41_sbox.md R72). -/
def sboxAffine (u : Byte) : Byte :=
  u ^^^ u.rotateLeft 1 ^^^ u.rotateLeft 2 ^^^ u.rotateLeft 3 ^^^ u.rotateLeft 4 ^^^ 0x63

/-- The inverse of `sboxAffine`. -/
def undoAffine (y : Byte) : Byte := y.rotateLeft 1 ^^^ y.rotateLeft 3 ^^^ y.rotateLeft 6 ^^^ 0x05

theorem sboxAffine_undoAffine (y : Byte) : sboxAffine (undoAffine y) = y := by
  revert y
  decide

/-- An entry with its affine map undone is the inverse of its place in the table. -/
theorem gfmul_undoAffine_subByte {v : Byte} (h : v ≠ 0) : gfmul v (undoAffine (subByte v)) = 1 := by
  revert v
  decide

theorem gfmul_eq_zero_iff {a b : Byte} : gfmul a b = 0 ↔ a = 0 ∨ b = 0 := by
  refine ⟨fun h => or_iff_not_imp_left.mpr fun ha => ?_, ?_⟩
  · calc b = gfmul (gfmul a (undoAffine (subByte a))) b := by rw [gfmul_undoAffine_subByte ha, gfmul_one_left]
      _ = gfmul (undoAffine (subByte a)) (gfmul a b) := by rw [gfmul_comm a, gfmul_assoc]
      _ = 0 := by rw [h, gfmul_zero]
  · rintro (rfl | rfl)
    · exact gfmul_zero_left b
    · exact gfmul_zero a

/-- Settles O50: the laws that hold because they hold at 1, and the inverses. -/
theorem gfmulFieldLaws : Obligations.GfmulFieldLaws :=
  ⟨gfmul_comm, gfmul_xor_right, gfmul_assoc, fun _ _ => gfmul_eq_zero_iff,
    fun _ ha => ⟨_, gfmul_undoAffine_subByte ha, fun _ h => eq_of_gfmul_eq_one h (gfmul_undoAffine_subByte ha)⟩⟩

theorem subByte_eq_sboxAffine {v u : Byte} (h : gfmul v u = 1) : subByte v = sboxAffine u := by
  have nonzero : v ≠ 0 := by
    rintro rfl
    rw [gfmul_zero_left] at h
    cases h
  rw [eq_of_gfmul_eq_one h (gfmul_undoAffine_subByte nonzero), sboxAffine_undoAffine]

/-- Settles O55: the entry of zero, and the entry of a byte with an inverse. -/
theorem sboxMeetsItsConstruction : Obligations.SboxMeetsItsConstruction := by
  rintro v u (⟨rfl, rfl⟩ | inverse)
  · rfl
  · exact subByte_eq_sboxAffine inverse

/-- Each value is the affine image of a byte that is zero or has an inverse. -/
theorem subByte_surjective : Function.Surjective subByte := by
  intro y
  rw [← sboxAffine_undoAffine y]
  by_cases h : undoAffine y = 0
  · exact ⟨0, by rw [h]; rfl⟩
  · exact ⟨_, subByte_eq_sboxAffine ((gfmul_comm _ _).trans (gfmul_undoAffine_subByte h))⟩

theorem subByte_bijective : Function.Bijective subByte :=
  ⟨Finite.injective_iff_surjective.mpr subByte_surjective, subByte_surjective⟩

/-- Settles O54: the construction reaches every value, and the 256 entries are compared with their places. -/
theorem sboxIsAPermutationWithoutFixedPoints : Obligations.SboxIsAPermutationWithoutFixedPoints :=
  ⟨subByte_bijective, by decide, by decide⟩

/-- Settles O52: both act on each byte alone. -/
theorem subWordCommutesWithRotWord : Obligations.SubWordCommutesWithRotWord := by
  refine ⟨fun w j => subWord_getElem w j j.isLt, fun w => Vector.ext fun j hj => ?_⟩
  simp only [subWord_getElem, rotWord_getElem]

end Sys2Proof.Machine

/-! XTIME as multiplication by 2 (40_gf_multiplier.md R61, R65): its bits, its inverse, and the eighth turn of the loop. -/

namespace Sys2Proof.Machine

theorem gfmul_two_inverse (a : Byte) : xtime (gfmul a 0x8D) = a := by
  have inverse : gfmul 0x8D 2 = 1 := by decide
  rw [← gfmul_two, gfmul_assoc, inverse, gfmul_one]

theorem xtime_bijective : Function.Bijective xtime :=
  Function.bijective_iff_has_inverse.mpr
    ⟨(gfmul · 0x8D), fun a => (gfmul_xtime_left a 0x8D).trans (gfmul_two_inverse a), gfmul_two_inverse⟩

/-- Settles O46: the shifted byte, XORed with 0x1B if bit 7 was set; the inverse is multiplication by 0x8D. -/
theorem xtimeBitEquations : Obligations.XtimeBitEquations := by
  refine ⟨fun b => ?_, xtime_bijective⟩
  rw [xtime_eq_shift_xor]
  cases b.getLsbD 7 <;> simp [Config.reductionByte]

theorem xtimes_eq_zero_iff {a : Byte} {i : Nat} : xtimes a i = 0 ↔ a = 0 := by
  rw [xtimes_eq_iterate]
  exact (xtime_bijective.injective.iterate i).eq_iff' (Function.iterate_fixed xtime_zero i)

/-- The eighth turn adds the summand of bit 7. -/
theorem gfmul_eq_addSummand_seven (a b : Byte) :
    gfmul a b = addSummand a b ([0, 1, 2, 3, 4, 5, 6].foldl (gfmulTurn b) (0, a)).1 7 := by
  have seven : [0, 1, 2, 3, 4, 5, 6].foldl (gfmulTurn b) (0, a) = _ := foldl_gfmulTurn_range a b 7
  rw [seven, gfmul_eq_foldl_addSummand]
  rfl

/-- Settles O49: the eighth turn adds nothing if bit 7 is clear, else `XTIMES(a, 7)`, which is 0 for `a = 0` only. -/
theorem gfmulUsesAllEightBits : Obligations.GfmulUsesAllEightBits := by
  intro a b
  rw [gfmul_eq_addSummand_seven, addSummand]
  cases b.getLsbD 7 with
  | false => simp
  | true => rw [if_pos rfl, Ne, xor_left_eq_self_iff, xtimes_eq_zero_iff, eq_self, true_and]

end Sys2Proof.Machine

/-! MixColumns (43_round_transforms.md R93, R94). MixColumn is one equation for all four bytes, in indices mod 4. Its
square has the coefficients 05, 00, 04, 00, and the square of that is the identity, as 5·5 ^ 4·4 = 1. -/

namespace Sys2Proof.Machine

theorem gfmul_three (a : Byte) : gfmul a 3 = xtime a ^^^ a := by
  have sum : gfmul a (2 ^^^ 1) = gfmul a 2 ^^^ gfmul a 1 := gfmul_xor_right a 2 1
  rwa [gfmul_two, gfmul_one] at sum

/-- Byte `j` of MixColumn: twice byte `j`, three times the next, and the other two (43_round_transforms.md R93). -/
theorem mixColumn_getElem (s : Word) (j : Nat) (hj : j < 4) :
    (mixColumn s)[j] = xtime s[j] ^^^ (xtime (s[(j + 1) % 4]'(Nat.mod_lt _ (by decide))) ^^^
      s[(j + 1) % 4]'(Nat.mod_lt _ (by decide))) ^^^ s[(j + 2) % 4]'(Nat.mod_lt _ (by decide)) ^^^
      s[(j + 3) % 4]'(Nat.mod_lt _ (by decide)) := by
  simp only [mixColumn, gfmul_two, gfmul_three]
  interval_cases j
  · rfl
  all_goals
    dsimp
    ac_rfl

theorem mixColumn_xor (a b : Word) : mixColumn (xorWord a b) = xorWord (mixColumn a) (mixColumn b) := by
  refine Vector.ext fun j hj => ?_
  simp only [mixColumn_getElem, xorWord_getElem, xtime_xor]
  ac_rfl

/-- Settles O58: 3 is 2 ^ 1, XTIME is linear, and in a column of equal bytes the terms cancel in pairs. -/
theorem mixColumnXtimeForm : Obligations.MixColumnXtimeForm := by
  refine ⟨fun s => ?_, mixColumn_xor, fun v => ?_⟩
  · simp only [mixColumn, gfmul_two, gfmul_three, ← BitVec.xor_assoc]
  · simp only [mixColumn, gfmul_two, gfmul_three]
    simp [BitVec.xor_comm]

/-- The square of the matrix of MixColumn. -/
theorem mixColumn_mixColumn_getElem (s : Word) (j : Nat) (hj : j < 4) :
    (mixColumn (mixColumn s))[j] =
      s[j] ^^^ xtime (xtime s[j]) ^^^ xtime (xtime (s[(j + 2) % 4]'(Nat.mod_lt _ (by decide)))) := by
  have fourth : (j + 4) % 4 = j := by omega
  have fifth : (j + 5) % 4 = (j + 1) % 4 := by omega
  have sixth : (j + 6) % 4 = (j + 2) % 4 := by omega
  simp only [mixColumn_getElem, xtime_xor, Nat.mod_add_mod, Nat.add_assoc, Nat.reduceAdd, fourth, fifth, sixth]
  generalize s[j] = a, s[(j + 1) % 4]'_ = b, s[(j + 2) % 4]'_ = c, s[(j + 3) % 4]'_ = d
  refine eq_of_eq_xor_twice (a ^^^ b ^^^ c ^^^ d ^^^ xtime a ^^^ xtime b ^^^ (xtime c ^^^ xtime c) ^^^
    (xtime d ^^^ xtime d) ^^^ xtime (xtime b)) ?_
  ac_rfl

theorem mixColumn_iterate_four (s : Word) : mixColumn^[4] s = s := by
  refine Vector.ext fun j hj => ?_
  have fourth : (j + 4) % 4 = j := by omega
  simp only [Function.iterate_succ_apply', Function.iterate_zero_apply, mixColumn_mixColumn_getElem, xtime_xor,
    Nat.mod_add_mod, Nat.add_assoc, Nat.reduceAdd, fourth]
  generalize s[j] = a, s[(j + 2) % 4]'_ = c
  refine eq_of_eq_xor_twice (xtime (xtime a) ^^^ xtime (xtime c) ^^^ xtime (xtime (xtime (xtime a))) ^^^
    xtime (xtime (xtime (xtime c)))) ?_
  ac_rfl

/-- MixColumns acts on each column alone. -/
theorem wordOfBlock_mixColumns (b : Block) (c : Fin 4) : wordOfBlock (mixColumns b) c = mixColumn (wordOfBlock b c) := by
  refine Vector.ext fun j hj => ?_
  simp

theorem wordOfBlock_xorBlock (a b : Block) (c : Fin 4) :
    wordOfBlock (xorBlock a b) c = xorWord (wordOfBlock a c) (wordOfBlock b c) := by
  refine Vector.ext fun j hj => ?_
  simp

theorem Block.ext_wordOfBlock {a b : Block} (h : ∀ c, wordOfBlock a c = wordOfBlock b c) : a = b :=
  Block.ext_cell fun row col => by
    rw [← wordOfBlock_getElem a col row row.isLt, h col, wordOfBlock_getElem]

theorem mixColumns_iterate_four (b : Block) : mixColumns^[4] b = b :=
  Block.ext_wordOfBlock fun c => by
    have columns : Function.Semiconj (wordOfBlock · c) mixColumns mixColumn := fun b => wordOfBlock_mixColumns b c
    exact (columns.iterate_right 4 b).trans (mixColumn_iterate_four _)

theorem mixColumns_xor (a b : Block) : mixColumns (xorBlock a b) = xorBlock (mixColumns a) (mixColumns b) :=
  Block.ext_wordOfBlock fun c => by simp only [wordOfBlock_mixColumns, wordOfBlock_xorBlock, mixColumn_xor]

end Sys2Proof.Machine

/-! The round transforms as maps of blocks (43_round_transforms.md R90 to R96). SHR and MIX have order 4, ARK has order 2,
and SUB is a bijection because the S-box is one. -/

namespace Sys2Proof.Machine

/-- `k` applications of ShiftRows rotate each row by `k` times its number. -/
theorem cell_shiftRows_iterate (k : Nat) (b : Block) (row col : Fin 4) :
    cell (shiftRows^[k] b) row col = cell b row (col + k • row) := by
  induction k generalizing col with
  | zero => simp
  | succ k ih => rw [Function.iterate_succ_apply', cell_shiftRows, ih, succ_nsmul', add_assoc]

theorem shiftRows_iterate_four (b : Block) : shiftRows^[4] b = b :=
  Block.ext_cell fun row col => by
    have turn : ∀ row : Fin 4, 4 • row = 0 := by decide
    rw [cell_shiftRows_iterate, turn, add_zero]

theorem bijective_of_iterate_four {α : Type*} {f : α → α} (h : ∀ x, f^[4] x = x) : Function.Bijective f :=
  Function.bijective_iff_has_inverse.mpr ⟨f^[3], h, fun x => (Function.iterate_succ_apply' f 3 x).symm.trans (h x)⟩

/-- A point of period 4 that is moved by two steps is moved by one and by three. -/
theorem iterate_ne_of_period_four {α : Type*} {f : α → α} {x : α} (h4 : f^[4] x = x) (h2 : f^[2] x ≠ x) {k : Nat}
    (hpos : 0 < k) (hlt : k < 4) : f^[k] x ≠ x := by
  intro hk
  have period : Function.IsPeriodicPt f (k.gcd 4) x := Function.IsPeriodicPt.gcd hk h4
  refine h2 (period.trans_dvd ?_)
  interval_cases k <;> decide

/-- The block with byte `0x01` at row 1, column 0, and zeros elsewhere. -/
def oneByteBlock : Block := blockOf fun row col => if row = 1 ∧ col = 0 then 1 else 0

theorem subBytes_getElem (b : Block) (j : Nat) (hj : j < 16) : (subBytes b)[j] = subByte b[j] := by
  simp [subBytes]

theorem subBytes_bijective : Function.Bijective subBytes := by
  obtain ⟨inverse, left, right⟩ := Function.bijective_iff_has_inverse.mp subByte_bijective
  refine Function.bijective_iff_has_inverse.mpr
    ⟨Vector.map inverse, fun b => Vector.ext fun j hj => ?_, fun b => Vector.ext fun j hj => ?_⟩
  · rw [Vector.getElem_map, subBytes_getElem, left]
  · rw [subBytes_getElem, Vector.getElem_map, right]

theorem addRoundKey_bijective (w : Schedule) (r : Fin 11) : Function.Bijective (addRoundKey w r) :=
  Function.Involutive.bijective (addRoundKey_involutive w r)

/-- The round key in linear order (42_key_schedule.md R86). -/
theorem scheduleByte_roundKey (w : Schedule) (r : Fin 11) (j : Fin 16) :
    scheduleByte w (16 * r.val + j.val) = some (roundKey w r)[j.val] := by
  have word : (16 * r.val + j.val) / 4 = 4 * r.val + j.val / 4 := by omega
  have byte : (16 * r.val + j.val) % 4 = j.val % 4 := by omega
  have inRange : 4 * r.val + j.val / 4 < 44 := by omega
  simp [scheduleByte, roundKey, rowOf, colOf, word, byte, inRange]

/-- Settles O57: cell by cell, and by the order of SHR and MIX. -/
theorem roundTransformLaws : Obligations.RoundTransformLaws := by
  refine ⟨fun b => Block.ext_cell fun row col => ?commute, subBytes_bijective,
    bijective_of_iterate_four shiftRows_iterate_four, bijective_of_iterate_four mixColumns_iterate_four,
    addRoundKey_bijective, fun a b => Block.ext_cell fun row col => ?linear, mixColumns_xor,
    ⟨zeroBlock, zeroBlock, ?notLinear⟩, shiftRows_iterate_four,
    fun k hpos hlt => ⟨oneByteBlock, iterate_ne_of_period_four (shiftRows_iterate_four _) ?shrTwice hpos hlt⟩,
    mixColumns_iterate_four,
    fun k hpos hlt => ⟨oneByteBlock, iterate_ne_of_period_four (mixColumns_iterate_four _) ?mixTwice hpos hlt⟩,
    addRoundKey_involutive, scheduleByte_roundKey⟩
  case commute => simp only [cell_shiftRows, cell_subBytes]
  case linear => simp only [cell_shiftRows, cell_xorBlock]
  case notLinear => decide
  case shrTwice => decide
  case mixTwice => decide

end Sys2Proof.Machine

/-! Encrypt as a composition of rounds (44_sequencer.md R112), each a bijection for every schedule. -/

namespace Sys2Proof.Machine

theorem foldl_bijective {α β : Type*} {f : α → β → α} (h : ∀ r, Function.Bijective (f · r)) (l : List β) :
    Function.Bijective fun x => l.foldl f x := by
  induction l with
  | nil => exact Function.bijective_id
  | cons r l ih => exact ih.comp (h r)

theorem shiftRows_subBytes_bijective : Function.Bijective fun b => shiftRows (subBytes b) :=
  (bijective_of_iterate_four shiftRows_iterate_four).comp subBytes_bijective

theorem middleRound_bijective (w : Schedule) (r : Fin 11) : Function.Bijective (middleRound w · r) :=
  (addRoundKey_bijective w r).comp
    ((bijective_of_iterate_four mixColumns_iterate_four).comp shiftRows_subBytes_bijective)

theorem lastRound_bijective (w : Schedule) : Function.Bijective (lastRound w) :=
  (addRoundKey_bijective w 10).comp shiftRows_subBytes_bijective

/-- Settles O21: every round is a composition of bijections. -/
theorem encryptIsABijection : Obligations.EncryptIsABijection := by
  intro key
  have rounds : encrypt key = lastRound (expand key) ∘
      (fun b => ([1, 2, 3, 4, 5, 6, 7, 8, 9] : List (Fin 11)).foldl (middleRound (expand key)) b) ∘
      addRoundKey (expand key) 0 := by
    funext pt
    simp only [encrypt, Function.comp_apply]
  rw [rounds]
  exact (lastRound_bijective _).comp ((foldl_bijective (middleRound_bijective _) _).comp (addRoundKey_bijective _ 0))

end Sys2Proof.Machine

/-! Expand (42_key_schedule.md R86) solves the recurrence, which gives the key for the first four words. -/

namespace Sys2Proof.Machine

/-- The first four words of `Expand` are the key (42_key_schedule.md R86). -/
theorem expand_key_getElem (key : Block) (i j : Fin 4) : (expand key)[i.val][j.val] = key[4 * i.val + j.val] := by
  have word : (expand key)[i.val] = wordOfBlock key i :=
    (expand_recurrence key ⟨i.val, by omega⟩).trans (kswWord_key key _ _ i.isLt)
  simp [word, cell, lin]

theorem expand_injective : Function.Injective expand := by
  intro key key' same
  refine Vector.ext fun j hj => ?_
  have byte := expand_key_getElem key ⟨j / 4, by omega⟩ ⟨j % 4, by omega⟩
  rw [same, expand_key_getElem] at byte
  simpa only [Nat.div_add_mod] using byte.symm

/-- Settles O59: the recurrence, and at its first four words the key. -/
theorem expandSolvesTheRecurrence : Obligations.ExpandSolvesTheRecurrence :=
  ⟨expand_key_getElem, expand_recurrence, expand_injective⟩

end Sys2Proof.Machine
